-- ==== Sys2Proof/Word.lean ====
section
/-! DEFINITION. The words of the block: bytes, 16-bit bus addresses, 8-bit line positions (R8, R10). -/
namespace Sys2Proof

/-- A byte, bits 7..0 (R8). -/
abbrev Byte := BitVec 8

/-- A 16-bit bus address; sums of addresses wrap modulo 2^16 (R8, R39, R44). -/
abbrev Addr := BitVec 16

/-- An 8-bit horizontal position; sums of positions wrap modulo 2^8 (R8, R115). -/
abbrev Pos := BitVec 8

end Sys2Proof
end

