-- ==== Sys2Proof/Config.lean ====
section
/-! DEFINITION. What is fixed for one machine: the layout of the register bank, the parameters of R7,
and the values the spec leaves open (opaque constants with no body, so that no proof can use a value of them). -/
namespace Sys2Proof

/-- The six fields of CTRL (R22). -/
structure Ctrl where
  colourKill : Bool
  dmaLevel : BitVec 2
  charWidth : Bool
  border : Bool
  kangaroo : Bool
  readMode : BitVec 2
  deriving DecidableEq, Repr, Inhabited

/-- One palette: the registers P<p>C1, P<p>C2, P<p>C3, that is `reg.palette[p][0..2]` (R19, R139). -/
structure Palette where
  c1 : Byte
  c2 : Byte
  c3 : Byte
  deriving DecidableEq, Repr, Inhabited

/-- The eight palettes, 24 bytes (R19). -/
structure Palettes where
  p0 : Palette
  p1 : Palette
  p2 : Palette
  p3 : Palette
  p4 : Palette
  p5 : Palette
  p6 : Palette
  p7 : Palette
  deriving DecidableEq, Repr, Inhabited

/-- The stored registers of the bank (R17 to R22). WSYNC and MSTAT have no storage. -/
structure Regs where
  background : Byte
  palette : Palettes
  dpph : Byte
  dppl : Byte
  chbase : Byte
  offset : Byte
  ctrl : Ctrl
  deriving DecidableEq, Repr, Inhabited

/-- `TV_STANDARD` (R7). -/
inductive TvStandard where
  | ntsc
  | pal
  deriving DecidableEq, Repr, Inhabited

/-- The ten kinds of DMA event (R104). -/
inductive EventKind where
  | zoneStartup
  | zoneStartupLastInZone
  | headerShort
  | headerLong
  | graphicsDirect
  | graphicsIndirect
  | graphicsIndirectWide
  | graphicsHoley
  | endOfBlank
  | interruptOverhead
  deriving DecidableEq, Repr

/-- `COST[k]`, one natural for each event kind (R7, R105). -/
structure Costs where
  zoneStartup : Nat
  zoneStartupLastInZone : Nat
  headerShort : Nat
  headerLong : Nat
  graphicsDirect : Nat
  graphicsIndirect : Nat
  graphicsIndirectWide : Nat
  graphicsHoley : Nat
  endOfBlank : Nat
  interruptOverhead : Nat
  deriving DecidableEq, Repr, Inhabited

/-- The parameters the model takes as arguments (R7), less those that are functions (below) and those the
spec fixes (`ADDR_BITS`, `LINE_CELLS`, `HOLEY_BOTH`). `hPeriod` and `regBase` are read by no rule (R74, R40). -/
structure Params where
  tvStandard : TvStandard
  hPeriod : Nat
  firstDmaLine : Nat
  lastDmaLine : Nat
  dmaMaxCycles : Nat
  cost : Costs
  pipelineLength : Nat
  dliOnFirstZone : Bool
  resetRegs : Option Regs
  regBase : Addr
  deriving DecidableEq, Repr, Inhabited

namespace Config

/-- `LINE_CELLS` (R7, decision D2). -/
def lineCells : Nat := 160

/-- The parameters of the machine that comes out of reset. R7 marks them OPEN: "the model must not assume one".
DESIGN CHOICE (log 2), safe. -/
opaque params : Params

/-- The k-th draw of the register bank at reset, where `RESET_REGS` is not given (R38, R169). DESIGN CHOICE (log 3), safe. -/
opaque drawRegs : Nat → Regs

/-- `READ_MODE_TABLE[01]` of a cell's palette index and colour, the palettes and the background (R135). OPEN (log 13), safe. -/
opaque readModeTable01 : BitVec 3 → BitVec 2 → Palettes → Byte → Byte × Byte

/-- `READ_MODE_TABLE[10]` (R134). OPEN (log 13), safe. -/
opaque readModeTable10 : BitVec 3 → BitVec 2 → Palettes → Byte → Byte × Byte

/-- The test configuration TC of 95 section 2. It is no claim about the hardware (R7): tests and `State.withFetchWord` use it. -/
def testConfiguration : Params where
  tvStandard := .ntsc
  hPeriod := 454
  firstDmaLine := 16
  lastDmaLine := 258
  dmaMaxCycles := 400
  cost :=
    { zoneStartup := 7, zoneStartupLastInZone := 17, headerShort := 8, headerLong := 10, graphicsDirect := 3,
      graphicsIndirect := 6, graphicsIndirectWide := 9, graphicsHoley := 3, endOfBlank := 7, interruptOverhead := 5 }
  pipelineLength := 0
  dliOnFirstZone := false
  resetRegs := none
  regBase := 0

end Config

end Sys2Proof
end

