-- ==== Sys2Proof/Syntax.lean ====
section
/-! DEFINITION. The instructions: one constructor for each row of spec/opcode_table.json, with its fields as operands. -/
namespace Sys2Proof

/-- A host access to a register-port offset: `RegRead(o)` (R140) or `RegWrite(o, v)` (R143). -/
inductive PortAccess where
  | read
  | write (v : Byte)
  deriving DecidableEq, Repr

/-- The instructions of the block. -/
inductive Instr where
  /-- ZONE, a zone-list record (R57, R86). `ignored` is bit 4 of byte 0 (R69). -/
  | zone (dli hole16 hole8 ignored : Bool) (height : BitVec 4) (dlHi dlLo : Byte)
  /-- DL_END, an end sentinel (R58, R97). The operands are bits 7 and 5 of byte 1, which nothing reads (R69). -/
  | dlEnd (ignored7 ignored5 : Bool)
  /-- DL_LONG, a 5-byte header (R61, R98). -/
  | dlLong (lo : Byte) (wm ind : Bool) (hi : Byte) (pal : BitVec 3) (wraw : BitVec 5) (hpos : Byte)
  /-- DL_SHORT, a 4-byte header (R60, R99). -/
  | dlShort (lo : Byte) (pal : BitVec 3) (wraw : BitVec 5) (hi hpos : Byte)
  /-- GFX_WM0, a graphics byte in write mode 0: four colours (R66, R122). -/
  | gfxWm0 (c0 c1 c2 c3 : BitVec 2)
  /-- GFX_WM1, a graphics byte in write mode 1: two colours and two low palette fields (R66, R122). -/
  | gfxWm1 (c0 c1 p0 p1 : BitVec 2)
  /-- CHARPTR, a character index of an indirect object (R67, R118). -/
  | charptr (c : Byte)
  /-- REG_BACKGRND, offset 0x00 (R140, R144). -/
  | regBackgrnd (a : PortAccess)
  /-- REG_WSYNC, offset 0x04 (R140, R146). -/
  | regWsync (a : PortAccess)
  /-- REG_MSTAT, offset 0x08 (R141, R147). -/
  | regMstat (a : PortAccess)
  /-- REG_DPPH, offset 0x0C (R140, R148). -/
  | regDpph (a : PortAccess)
  /-- REG_DPPL, offset 0x10 (R140, R148). -/
  | regDppl (a : PortAccess)
  /-- REG_CHBASE, offset 0x14 (R140, R149). -/
  | regChbase (a : PortAccess)
  /-- REG_OFFSET, offset 0x18 (R140, R150). -/
  | regOffset (a : PortAccess)
  /-- REG_CTRL, offset 0x1C (R140, R151). -/
  | regCtrl (a : PortAccess)
  /-- REG_PALETTE_C1, colour 1 of palette `p` (R140, R145). -/
  | regPaletteC1 (p : BitVec 3) (a : PortAccess)
  /-- REG_PALETTE_C2, colour 2 of palette `p` (R140, R145). -/
  | regPaletteC2 (p : BitVec 3) (a : PortAccess)
  /-- REG_PALETTE_C3, colour 3 of palette `p` (R140, R145). -/
  | regPaletteC3 (p : BitVec 3) (a : PortAccess)
  deriving DecidableEq, Repr

end Sys2Proof
end

