-- ==== Sys2Proof/WellFormed.lean ====
section
/-! DEFINITION. Which instructions an encoding can hold. -/
namespace Sys2Proof

/-- A short header's raw width is not 0: with 0 its byte 1 would be an end sentinel's or a long header's (R63).
Every other operand is free: R57 (every byte pattern is a zone record), R68 (no illegal encodings). -/
def Instr.wellFormed : Instr → Bool
  | .zone _ _ _ _ _ _ _ => true
  | .dlEnd _ _ => true
  | .dlLong _ _ _ _ _ _ _ => true
  | .dlShort _ _ wraw _ _ => wraw != 0
  | .gfxWm0 _ _ _ _ => true
  | .gfxWm1 _ _ _ _ => true
  | .charptr _ => true
  | .regBackgrnd _ => true
  | .regWsync _ => true
  | .regMstat _ => true
  | .regDpph _ => true
  | .regDppl _ => true
  | .regChbase _ => true
  | .regOffset _ => true
  | .regCtrl _ => true
  | .regPaletteC1 _ _ => true
  | .regPaletteC2 _ _ => true
  | .regPaletteC3 _ _ => true

end Sys2Proof
end

