-- ==== Sys2Proof/Decode.lean ====
section
/-! DEFINITION. The decoder, total on any bytes, the encoder, the assembler notation of R71, and the
decoder's answer to a word of spec/opcode_table.json. -/
namespace Sys2Proof

/-- Bit `i` of a byte (R8). -/
def bitOf (b : Byte) (i : Nat) : Bool := b.getLsbD i

/-- The `len` bits of a byte from bit `lo` up (R8: `b[lo+len-1:lo]`). -/
def bitsOf (b : Byte) (lo len : Nat) : BitVec len := b.extractLsb' lo len

/-- Where an instruction's bytes are read from; what they mean depends on it (R56, R66, R67, R70). -/
inductive Stream where
  | zoneList
  | displayList
  /-- Graphics bytes, read in the sticky write mode given. -/
  | graphics (writeMode : Bool)
  | characters
  /-- A register-port access of the host. -/
  | port
  deriving DecidableEq, Repr

/-- Why the decoder has no instruction for some bytes. No byte pattern of the block's own records is illegal (R68). -/
inductive DecodeError where
  /-- The bytes end before the record does. -/
  | truncated
  /-- The port offset has a bit above bit 4 set: the port has offsets 0x00 to 0x1F (R17, R70). -/
  | offsetBeyondPort
  /-- The direction byte of a port access is neither 0 (write) nor 1 (read): the model's own encoding (log 6). -/
  | badDirection
  deriving DecidableEq, Repr

/-- The three classes of a header position (R58, R59). -/
inductive HeaderClass where
  | endOfList
  | long
  | short
  deriving DecidableEq, Repr

/-- `isEnd = ((m & 0x5F) == 0x00)` (R58). -/
def isEndMode (m : Byte) : Bool := m &&& 0x5F#8 == 0x00#8

/-- `isLong = ((m & 0x5F) == 0x40)` (R58). -/
def isLongMode (m : Byte) : Bool := m &&& 0x5F#8 == 0x40#8

/-- The class of a header position from its second byte (R58): end first, then long, else short (R59). -/
def classify (m : Byte) : HeaderClass :=
  if isEndMode m then .endOfList else if isLongMode m then .long else .short

/-- ZONE3 (R57). -/
def decodeZone (b0 b1 b2 : Byte) : Instr :=
  .zone (bitOf b0 7) (bitOf b0 6) (bitOf b0 5) (bitOf b0 4) (bitsOf b0 0 4) b1 b2

/-- HDR_END (R58, R64, R69). -/
def decodeEnd (m : Byte) : Instr := .dlEnd (bitOf m 7) (bitOf m 5)

/-- HDR_LONG (R61). -/
def decodeLong (b0 m b2 b3 b4 : Byte) : Instr :=
  .dlLong b0 (bitOf m 7) (bitOf m 5) b2 (bitsOf b3 5 3) (bitsOf b3 0 5) b4

/-- HDR_SHORT (R60). -/
def decodeShort (b0 m b2 b3 : Byte) : Instr := .dlShort b0 (bitsOf m 5 3) (bitsOf m 0 5) b2 b3

/-- GFX_WM0 or GFX_WM1, by the write mode in force (R66, R123). -/
def decodeGraphics (writeMode : Bool) (b : Byte) : Instr :=
  if writeMode then .gfxWm1 (bitsOf b 6 2) (bitsOf b 4 2) (bitsOf b 2 2) (bitsOf b 0 2)
  else .gfxWm0 (bitsOf b 6 2) (bitsOf b 4 2) (bitsOf b 2 2) (bitsOf b 0 2)

/-- The register a port offset selects (R17, R70). -/
def decodePort (o : BitVec 5) (a : PortAccess) : Instr :=
  let p : BitVec 3 := o.extractLsb' 2 3
  match (o.extractLsb' 0 2).toNat with
  | 1 => .regPaletteC1 p a
  | 2 => .regPaletteC2 p a
  | 3 => .regPaletteC3 p a
  | _ =>
    match p.toNat with
    | 0 => .regBackgrnd a
    | 1 => .regWsync a
    | 2 => .regMstat a
    | 3 => .regDpph a
    | 4 => .regDppl a
    | 5 => .regChbase a
    | 6 => .regOffset a
    | _ => .regCtrl a

/-- A display-list position: byte 1 classifies it (R58), then the record of its class is read (R56, R95). -/
def decodeHeaderBytes : List Byte → Except DecodeError (Instr × List Byte)
  | b0 :: m :: rest =>
    match classify m with
    | .endOfList => .ok (decodeEnd m, rest)
    | .long =>
      match rest with
      | b2 :: b3 :: b4 :: rest => .ok (decodeLong b0 m b2 b3 b4, rest)
      | _ => .error .truncated
    | .short =>
      match rest with
      | b2 :: b3 :: rest => .ok (decodeShort b0 m b2 b3, rest)
      | _ => .error .truncated
  | _ => .error .truncated

/-- A port access as bytes: the offset, a direction (1 read, 0 write), and for a write the byte.
The spec gives the offset only; the other bytes are the model's. DESIGN CHOICE (log 6), safe. -/
def decodePortBytes : List Byte → Except DecodeError (Instr × List Byte)
  | b0 :: d :: rest =>
    if bitsOf b0 5 3 != 0 then .error .offsetBeyondPort
    else if d == 1#8 then .ok (decodePort (bitsOf b0 0 5) .read, rest)
    else if d == 0#8 then
      match rest with
      | v :: rest => .ok (decodePort (bitsOf b0 0 5) (.write v), rest)
      | [] => .error .truncated
    else .error .badDirection
  | _ => .error .truncated

/-- The instruction at the head of a stream, with the bytes after it. -/
def decode : Stream → List Byte → Except DecodeError (Instr × List Byte)
  | .zoneList, b0 :: b1 :: b2 :: rest => .ok (decodeZone b0 b1 b2, rest)
  | .zoneList, _ => .error .truncated
  | .displayList, bs => decodeHeaderBytes bs
  | .graphics w, b :: rest => .ok (decodeGraphics w b, rest)
  | .graphics _, [] => .error .truncated
  | .characters, c :: rest => .ok (.charptr c, rest)
  | .characters, [] => .error .truncated
  | .port, bs => decodePortBytes bs

/-- The bytes of a port access at an offset. -/
def encodePort (o : BitVec 5) : PortAccess → List Byte
  | .read => [0#3 ++ o, 1#8]
  | .write v => [0#3 ++ o, 0#8, v]

/-- The bytes of an instruction, from the layouts of R57, R60, R61, R66, R67 and R17.
Byte 0 of an end position is 0x00 (R72). -/
def encode : Instr → List Byte
  | .zone dli hole16 hole8 ignored height dlHi dlLo =>
    [BitVec.ofBool dli ++ BitVec.ofBool hole16 ++ BitVec.ofBool hole8 ++ BitVec.ofBool ignored ++ height, dlHi, dlLo]
  | .dlEnd i7 i5 => [0#8, BitVec.ofBool i7 ++ 0#1 ++ BitVec.ofBool i5 ++ 0#5]
  | .dlLong lo wm ind hi pal wraw hpos => [lo, BitVec.ofBool wm ++ 1#1 ++ BitVec.ofBool ind ++ 0#5, hi, pal ++ wraw, hpos]
  | .dlShort lo pal wraw hi hpos => [lo, pal ++ wraw, hi, hpos]
  | .gfxWm0 c0 c1 c2 c3 => [c0 ++ c1 ++ c2 ++ c3]
  | .gfxWm1 c0 c1 p0 p1 => [c0 ++ c1 ++ p0 ++ p1]
  | .charptr c => [c]
  | .regBackgrnd a => encodePort 0x00#5 a
  | .regWsync a => encodePort 0x04#5 a
  | .regMstat a => encodePort 0x08#5 a
  | .regDpph a => encodePort 0x0C#5 a
  | .regDppl a => encodePort 0x10#5 a
  | .regChbase a => encodePort 0x14#5 a
  | .regOffset a => encodePort 0x18#5 a
  | .regCtrl a => encodePort 0x1C#5 a
  | .regPaletteC1 p a => encodePort (p ++ 1#2) a
  | .regPaletteC2 p a => encodePort (p ++ 2#2) a
  | .regPaletteC3 p a => encodePort (p ++ 3#2) a

/-- The stream an instruction is read from. -/
def Instr.stream : Instr → Stream
  | .zone _ _ _ _ _ _ _ => .zoneList
  | .dlEnd _ _ => .displayList
  | .dlLong _ _ _ _ _ _ _ => .displayList
  | .dlShort _ _ _ _ _ => .displayList
  | .gfxWm0 _ _ _ _ => .graphics false
  | .gfxWm1 _ _ _ _ => .graphics true
  | .charptr _ => .characters
  | .regBackgrnd _ => .port
  | .regWsync _ => .port
  | .regMstat _ => .port
  | .regDpph _ => .port
  | .regDppl _ => .port
  | .regChbase _ => .port
  | .regOffset _ => .port
  | .regCtrl _ => .port
  | .regPaletteC1 _ _ => .port
  | .regPaletteC2 _ _ => .port
  | .regPaletteC3 _ _ => .port

/-- A line of the assembler notation of R71. -/
inductive AsmLine where
  | zone (dli h16 h8 : Bool) (height : BitVec 4) (dl : Addr)
  /-- `HDR4`; `width` in 1..31. -/
  | hdr4 (gfx : Addr) (pal : BitVec 3) (width : Nat) (hpos : Byte)
  /-- `HDR5`; `width` in 1..32. -/
  | hdr5 (gfx : Addr) (wm ind : Bool) (pal : BitVec 3) (width : Nat) (hpos : Byte)
  | endOfList
  | bytes (vs : List Byte)
  deriving DecidableEq, Repr

/-- High byte of an address. -/
def hiByte (a : Addr) : Byte := a.extractLsb' 8 8

/-- Low byte of an address. -/
def loByte (a : Addr) : Byte := a.extractLsb' 0 8

/-- The byte `(p<<5)|((32-w) & 0x1F)` of R71. -/
def asmPalWidth (pal : BitVec 3) (width : Nat) : Byte :=
  (pal.setWidth 8 <<< 5) ||| (BitVec.ofNat 8 (32 - width) &&& 0x1F#8)

/-- The bytes a line of R71 emits. -/
def AsmLine.emit : AsmLine → List Byte
  | .zone d a b n dl =>
    [((BitVec.ofBool d).setWidth 8 <<< 7) ||| ((BitVec.ofBool a).setWidth 8 <<< 6) |||
      ((BitVec.ofBool b).setWidth 8 <<< 5) ||| n.setWidth 8, hiByte dl, loByte dl]
  | .hdr4 gfx pal width hpos => [loByte gfx, asmPalWidth pal width, hiByte gfx, hpos]
  | .hdr5 gfx wm ind pal width hpos =>
    [loByte gfx, 0x40#8 ||| ((BitVec.ofBool wm).setWidth 8 <<< 7) ||| ((BitVec.ofBool ind).setWidth 8 <<< 5),
      hiByte gfx, asmPalWidth pal width, hpos]
  | .endOfList => [0x00#8, 0x00#8]
  | .bytes vs => vs

/-- Byte `i` of a table word, bit 0 of the word being bit 0 of byte 0. -/
def tableByte (w i : Nat) : Byte := BitVec.ofNat 8 (w / 2 ^ (8 * i))

/-- The stream and the bytes an opcode-table word stands for. A 24-bit word is a zone record, byte 0 lowest.
An 8-bit word below 0x20 is a port offset (a write of 0); any other is byte 1 of a header, its other bytes 0.
The table's 8-bit rows overlap, and the word alone does not say which stream it stands in. DESIGN CHOICE (log 7), safe. -/
def tableBytes (nbits w : Nat) : Option (Stream × List Byte) :=
  if nbits = 24 then some (.zoneList, [tableByte w 0, tableByte w 1, tableByte w 2])
  else if nbits = 8 then
    if w % 256 < 32 then some (.port, [tableByte w 0, 0#8, 0#8])
    else some (.displayList, [0#8, tableByte w 0, 0#8, 0#8, 0#8])
  else none

/-- The instruction the decoder reads from an opcode-table word. -/
def decodeTableWord (nbits w : Nat) : Option Instr :=
  match tableBytes nbits w with
  | some (st, bs) =>
    match decode st bs with
    | .ok (i, _) => some i
    | .error _ => none
  | none => none

end Sys2Proof
end

