-- ==== Sys2Proof/Machine/State.lean ====
section
/-! DEFINITION. The state of the machine as plain data, what can stop it, and the state after reset. -/
namespace Sys2Proof.Machine

/-- The coordinates (R16). -/
structure Coord where
  frame : Nat
  scanline : Nat
  clock : Nat
  deriving DecidableEq, Repr

/-- The zone descriptor (R25). -/
structure Zone where
  origin : Addr
  seq : Nat
  dli : Bool
  hole16 : Bool
  hole8 : Bool
  height : BitVec 4
  remaining : BitVec 4
  dlHi : Byte
  dlLo : Byte
  deriving DecidableEq, Repr

/-- The display-list header (R27). -/
structure Header where
  origin : Addr
  seq : Nat
  isLong : Bool
  indirect : Bool
  isEnd : Bool
  lo : Byte
  hi : Byte
  pal : BitVec 3
  width : Nat
  hpos : Pos
  deriving DecidableEq, Repr

/-- The colour of a set cell: an index 0..3, or the background sentinel BG (R31). -/
inductive Colour where
  | ix (c : BitVec 2)
  | bg
  deriving DecidableEq, Repr

/-- A cell of a line buffer (R31). An unset cell holds no palette and no colour: no rule reads them (U15; log 5). -/
inductive LineEntry where
  | unset
  | set (pal : BitVec 3) (colour : Colour)
  deriving DecidableEq, Repr

/-- A line buffer; `State.Inv` says it has `LINE_CELLS` cells (R31). -/
abbrev LineBuffer := List LineEntry

/-- Which read an operation makes (R155). -/
inductive ReadOp where
  | zoneRead
  | headerRead
  | charPtrRead
  | graphicsRead
  deriving DecidableEq, Repr

/-- The fault kinds of the block: one (R155). -/
inductive FaultKind where
  | busError
  deriving DecidableEq, Repr

/-- The fault record (R33, R156). -/
structure FaultRecord where
  kind : FaultKind
  addr : Addr
  op : ReadOp
  deriving DecidableEq, Repr

/-- One line of output (R34, R83): 160 pairs of colour bytes (left, right), the two passed-out control bits,
and the scanline the line belongs to (`out.line_index`). That the three come and go with the line, so that none of them
has a value before the first line after reset, is the model's. DESIGN CHOICE (log 26), safe. -/
structure LineOut where
  pairs : List (Byte × Byte)
  colourKill : Bool
  border : Bool
  lineIndex : Nat
  deriving DecidableEq, Repr

/-- The outputs of the block (R34). `line` is none until the first scanline step after reset (R38), and with it
`out.colourKill`, `out.border` and `out.line_index` (log 26). -/
structure Outputs where
  line : Option LineOut
  dmaConsumed : Nat
  dli : Bool
  wsync : Bool
  deriving DecidableEq, Repr

/-- The memory behind the bus (R39): the bytes that differ from what an unlisted address reads as, by rising address (log 4). -/
abbrev Memory := List Host.Cell

/-- A turn of the host: a move of its own between two scanline steps, or letting the block take one (R13, R50; log 1). -/
inductive HostMove where
  /-- A register-port access (R140, R143). -/
  | port (o : BitVec 5) (a : PortAccess)
  /-- A memory write (R50). -/
  | memWrite (a : Addr) (v : Byte)
  /-- The bus stops answering at an address: reads of it fail from now on (R156, U11). -/
  | busFail (a : Addr)
  /-- The bus answers at an address again (R156, U11). -/
  | busAnswer (a : Addr)
  /-- A reset (R169). -/
  | reset
  /-- No access: the host lets the block take its next scanline step (R6, R50). The moves after it come between that step
  and the next. -/
  | scanline
  deriving DecidableEq, Repr

end Sys2Proof.Machine

namespace Sys2Proof.Config

/-- What the host does in the run from reset: its moves, and where among them the scanline steps fall. The spec leaves it to
the host (R13, R50). DESIGN CHOICE (log 1), safe. -/
opaque hostMoves : List Machine.HostMove

end Sys2Proof.Config

namespace Sys2Proof.Machine

/-- The state of the machine. The fields up to `out` are the block's (10_state.md); `mem`, `busFaults`, `inbox` and `par` belong
to what surrounds it; the last four are the model's own (INVENTORY.md, State). -/
structure State where
  coord : Coord
  reg : Regs
  zone : Zone
  zoneValid : Bool
  dl : Header
  writeMode : Bool
  budget : Nat
  exhausted : Bool
  buf0 : LineBuffer
  buf1 : LineBuffer
  /-- `writeSel` (R32): false is 0, `buf0` is the write buffer. -/
  writeSel : Bool
  fault : Option FaultRecord
  out : Outputs
  mem : Memory
  /-- The addresses whose reads fail, rising: "when a bus read fails is the host's business" (R156; log 4). -/
  busFaults : List Nat
  /-- The host's turns still to come, first one first; once there are none, scanline steps alone. -/
  inbox : List HostMove
  /-- The parameters of R7. No operation changes them. -/
  par : Params
  /-- The byte the last `RegRead` returned to the host (R140; log 9). -/
  portData : Byte
  /-- The n of R115: how many graphics bytes of the current object are behind the walker (log 10). -/
  gfxIndex : Nat
  /-- The bus reads of the last scanline step, in order (R46, R47; log 11). -/
  reads : List (Addr × ReadOp)
  /-- How many register draws resets have made (R169; log 3). -/
  draws : Nat
  deriving DecidableEq, Repr

/-- What stops the machine. -/
inductive Fault where
  /-- Raised by a scanline step while a bus error is recorded: "the block is stuck until reset" (R75, R159).
  Safe: the block takes no step there. -/
  | stuck (addr : Addr) (op : ReadOp)
  deriving DecidableEq, Repr

/-- What the model has no meaning for. -/
inductive Refusal where
  /-- An instruction that has no meaning yet, by its mnemonic; raised by `exec` alone. Safe. No arm raises it. -/
  | notModelled (mnemonic : String)
  /-- Raised by the scanline step under parameters with a zero header cost: "such a configuration is refused" (R102, D36).
  Safe. -/
  | zeroHeaderCost
  deriving DecidableEq, Repr

/-- A line buffer with every cell unset (R38, R130). -/
def clearLine : LineBuffer := List.replicate Config.lineCells .unset

/-- The registers after a reset: `RESET_REGS` if given, else draw `k` (R38, R169). DESIGN CHOICE (log 3), safe. -/
def resetRegs (p : Params) (k : Nat) : Regs := p.resetRegs.getD (Config.drawRegs k)

/-- `Reset` (R169, R38) under parameters `p`, making register draw `k`. R38 and R169 name no value for `out.colourKill`,
`out.border` and `out.line_index`: they are absent with `out.line` (log 26). -/
def State.resetWith (p : Params) (k : Nat) : State where
  coord := { frame := 0, scanline := 0, clock := 0 }
  reg := resetRegs p k
  zone :=
    { origin := 0, seq := 0, dli := false, hole16 := false, hole8 := false, height := 0, remaining := 0, dlHi := 0,
      dlLo := 0 }
  zoneValid := false
  dl :=
    { origin := 0, seq := 0, isLong := false, indirect := false, isEnd := false, lo := 0, hi := 0, pal := 0, width := 0,
      hpos := 0 }
  writeMode := false
  budget := p.dmaMaxCycles
  exhausted := false
  buf0 := clearLine
  buf1 := clearLine
  writeSel := false
  fault := none
  out := { line := none, dmaConsumed := 0, dli := false, wsync := false }
  mem := []
  busFaults := []
  inbox := []
  par := p
  portData := 0
  gfxIndex := 0
  reads := []
  draws := k + 1

/-- The machine right after reset: the parameters are the opaque `Config.params` (log 2), the host's turns the opaque
`Config.hostMoves` (log 1), memory lists nothing and no address fails (log 4). -/
def State.reset : State := { State.resetWith Config.params 0 with inbox := Config.hostMoves }

end Sys2Proof.Machine
end

