-- ==== Sys2Proof/Machine/Operands.lean ====
section
/-! DEFINITION. Operands: parameter lookups, register-bank fields, widths, addresses and positions. -/
namespace Sys2Proof.Machine

/-- `V_PERIOD`, scanlines per frame (R7, R73). -/
def vPeriod (p : Params) : Nat :=
  match p.tvStandard with
  | .ntsc => 263
  | .pal => 313

/-- `COST[k]` (R105). -/
def costOf (p : Params) : EventKind → Nat
  | .zoneStartup => p.cost.zoneStartup
  | .zoneStartupLastInZone => p.cost.zoneStartupLastInZone
  | .headerShort => p.cost.headerShort
  | .headerLong => p.cost.headerLong
  | .graphicsDirect => p.cost.graphicsDirect
  | .graphicsIndirect => p.cost.graphicsIndirect
  | .graphicsIndirectWide => p.cost.graphicsIndirectWide
  | .graphicsHoley => p.cost.graphicsHoley
  | .endOfBlank => p.cost.endOfBlank
  | .interruptOverhead => p.cost.interruptOverhead

/-- `COST[HeaderShort] ≥ 1` and `COST[HeaderLong] ≥ 1` (R7, R102, R105). -/
def headerCostsPositive (p : Params) : Bool := 1 ≤ costOf p .headerShort && 1 ≤ costOf p .headerLong

/-- `DecodeWidth` (R62): the two's complement of the raw field in 5 bits, with 0 read as 32. -/
def decodeWidth (wraw : BitVec 5) : Nat :=
  let w := ~~~wraw + 1
  if w == 0 then 32 else w.toNat

/-- `(hi << 8) | lo` as an address. -/
def joinAddr (hi lo : Byte) : Addr := (hi.setWidth 16 <<< 8) ||| lo.setWidth 16

/-- `zone.remaining << 8`, the zone offset added to the high byte (R65, R116). -/
def zoneOffset (s : State) : Addr := s.zone.remaining.setWidth 16 <<< 8

/-- The zone list's start `(reg.dpph << 8) | reg.dppl` (R20, R85). -/
def zoneListStart (s : State) : Addr := joinAddr s.reg.dpph s.reg.dppl

/-- The zone's display list `(zone.dlHi << 8) | zone.dlLo` (R57, R93). -/
def displayListStart (s : State) : Addr := joinAddr s.zone.dlHi s.zone.dlLo

/-- The header's pointer `P = (dl.hi << 8) | dl.lo` (R65). -/
def headerPointer (s : State) : Addr := joinAddr s.dl.hi s.dl.lo

/-- The graphics base address of a direct object (R116). -/
def directBase (s : State) : Addr := headerPointer s + zoneOffset s

/-- The graphics address of character `c` (R67, R118). -/
def characterBase (s : State) (c : Byte) : Addr := joinAddr s.reg.chbase c + zoneOffset s

/-- Header length, the advance distance (R95). -/
def headerLength (h : Header) : Addr := if h.isLong then 5 else 4

/-- Cells per graphics byte in a write mode (R115). -/
def cellsPerByte (writeMode : Bool) : Nat := if writeMode then 2 else 4

/-- Graphics bytes per character (R118, R121). -/
def bytesPerCharacter (s : State) : Nat := if s.reg.ctrl.charWidth then 1 else 2

/-- The event kind of a character (R118, R121). -/
def characterKind (s : State) : EventKind :=
  if s.reg.ctrl.charWidth then .graphicsIndirect else .graphicsIndirectWide

/-- Where the object's next graphics byte is written, `dl.hpos +8 cpb*n` (R115), with `cpb` cells per byte. -/
def bytePos (cpb : Nat) (s : State) : Pos := s.dl.hpos + BitVec.ofNat 8 (cpb * s.gfxIndex)

/-- `(dl.pal & 0b100) | p`, the palette of a write-mode-1 cell (R66, R122). -/
def wm1Palette (pal : BitVec 3) (p : BitVec 2) : BitVec 3 := (pal &&& 0b100#3) ||| p.setWidth 3

/-- The line-buffer target of a position, `(x - PIPELINE_LENGTH) mod 256` (R124, R125). -/
def pipelineTarget (p : Params) (x : Pos) : Nat := (x - BitVec.ofNat 8 p.pipelineLength).toNat

/-- `DecodeCtrl(v)` (R22, R151). -/
def decodeCtrl (v : Byte) : Ctrl where
  colourKill := bitOf v 7
  dmaLevel := bitsOf v 5 2
  charWidth := bitOf v 4
  border := bitOf v 3
  kangaroo := bitOf v 2
  readMode := bitsOf v 0 2

/-- Palette `p` of the eight (R19). -/
def getPalette (ps : Palettes) (p : BitVec 3) : Palette :=
  match p.toNat with
  | 0 => ps.p0
  | 1 => ps.p1
  | 2 => ps.p2
  | 3 => ps.p3
  | 4 => ps.p4
  | 5 => ps.p5
  | 6 => ps.p6
  | _ => ps.p7

/-- The palettes with palette `p` replaced (R19). -/
def putPalette (ps : Palettes) (p : BitVec 3) (v : Palette) : Palettes :=
  match p.toNat with
  | 0 => { ps with p0 := v }
  | 1 => { ps with p1 := v }
  | 2 => { ps with p2 := v }
  | 3 => { ps with p3 := v }
  | 4 => { ps with p4 := v }
  | 5 => { ps with p5 := v }
  | 6 => { ps with p6 := v }
  | _ => { ps with p7 := v }

/-- The colour a cell's index selects: `c` in 1..3 is `palette[pal][c - 1]`; 0 has no palette register and is the background (R139). -/
def paletteColour (ps : Palettes) (background : Byte) (pal : BitVec 3) (c : BitVec 2) : Byte :=
  match c.toNat with
  | 0 => background
  | 1 => (getPalette ps pal).c1
  | 2 => (getPalette ps pal).c2
  | _ => (getPalette ps pal).c3

/-- `op` code of a fault record (R155). -/
def ReadOp.code : ReadOp → Nat
  | .zoneRead => 1
  | .headerRead => 2
  | .charPtrRead => 3
  | .graphicsRead => 4

/-- Kind code of a fault record (R155). -/
def FaultKind.code : FaultKind → Nat
  | .busError => 1

end Sys2Proof.Machine
end

