-- ==== Sys2Proof/Machine/Ops.lean ====
section
/-! DEFINITION. The named operations over memory, line buffers, registers, the port and outputs, and the raising of a fault. -/
namespace Sys2Proof.Machine

/-! ## Memory -/

/-- What an unlisted address reads as. The spec gives no contents for memory nothing has written.
DESIGN CHOICE (log 4), unsafe. -/
def unwrittenByte : Byte := 0

/-- The entries rise strictly, from `lo` up, lie in the 16-bit address space (R39), and none holds `unwrittenByte`. -/
def Memory.wfFrom (lo : Nat) : Memory → Bool
  | [] => true
  | (a, v) :: m => lo ≤ a && a < 65536 && v != unwrittenByte && Memory.wfFrom (a + 1) m

/-- The canonical form of a memory: equal memories are equal lists. -/
def Memory.wf (m : Memory) : Bool := Memory.wfFrom 0 m

/-- The byte at an address. -/
def Memory.read : Memory → Nat → Byte
  | [], _ => unwrittenByte
  | (b, v) :: m, a => if b = a then v else Memory.read m a

/-- An entry put in front, unless it is what an unlisted address reads as. -/
def Memory.entry (a : Nat) (v : Byte) (m : Memory) : Memory := if v = unwrittenByte then m else (a, v) :: m

/-- A host write (R50). -/
def Memory.write : Memory → Nat → Byte → Memory
  | [], a, v => Memory.entry a v []
  | (b, w) :: m, a, v =>
    if a < b then Memory.entry a v ((b, w) :: m)
    else if a = b then Memory.entry a v m
    else (b, w) :: Memory.write m a v

/-- The bytes `vs` written from `a` up, addresses wrapping (R44). -/
def Memory.writeAll (m : Memory) (a : Addr) : List Byte → Memory
  | [] => m
  | v :: vs => Memory.writeAll (m.write a.toNat v) (a + 1) vs

/-- A strictly rising list of 16-bit addresses, from `lo` up: the canonical form of a set of them. -/
def risingFrom (lo : Nat) : List Nat → Bool
  | [] => true
  | a :: l => lo ≤ a && a < 65536 && risingFrom (a + 1) l

/-- An address added to a rising list. -/
def insertAddr (a : Nat) : List Nat → List Nat
  | [] => [a]
  | b :: l => if a < b then a :: b :: l else if a = b then b :: l else b :: insertAddr a l

/-- An address taken out of a rising list. -/
def removeAddr (a : Nat) (l : List Nat) : List Nat := l.filter fun b => b != a

/-- What the bus answers a read of a 16-bit address: a byte, or none where the read fails (R156).
It is the model's read of one byte. -/
def busByte (s : State) (a : Addr) : Option Byte :=
  if s.busFaults.contains a.toNat then none else some (s.mem.read a.toNat)

/-! ## Halting and the fault record -/

/-- Why a scanline step or an instruction does not run to its end. -/
inductive Halt where
  /-- `raise BusError(addr, op)` (R156). -/
  | busError (f : FaultRecord)
  | fault (r : Fault)
  | refused (r : Refusal)
  deriving DecidableEq, Repr

/-- What one step or one instruction answers. -/
abbrev Result := Host.Outcome State Fault Refusal

/-- A part of a step: the state after it, or why it did not finish. -/
abbrev Run := Except Halt State

/-- Taking a bus error: the state before, with only `fault` changed (R158). -/
def takeBusError (s : State) (f : FaultRecord) : State := { s with fault := some f }

/-- The answer of a step or an instruction that began in `s`: a raised bus error is taken, rolling the rest back (R11, R158). -/
def conclude (s : State) : Run → Result
  | .ok s' => .next s'
  | .error (.busError f) => .next (takeBusError s f)
  | .error (.fault r) => .fault r
  | .error (.refused r) => .refused r

/-- `MemRead(a, 1)` as read `op` (R9, R46, R156). -/
def busRead (op : ReadOp) (a : Addr) (s : State) : Except Halt (Byte × State) :=
  match busByte s a with
  | some b => .ok (b, { s with reads := s.reads ++ [(a, op)] })
  | none => .error (.busError { kind := .busError, addr := a, op := op })

/-! ## Line buffers -/

/-- `buf[writeSel]` (R32). -/
def writeBuffer (s : State) : LineBuffer := if s.writeSel then s.buf1 else s.buf0

/-- `buf[1 - writeSel]` (R32). -/
def readBuffer (s : State) : LineBuffer := if s.writeSel then s.buf0 else s.buf1

/-- The state with `buf[writeSel]` replaced. -/
def setWriteBuffer (s : State) (b : LineBuffer) : State :=
  if s.writeSel then { s with buf1 := b } else { s with buf0 := b }

/-- The cell `PutCell` writes for colour `c`, none if it is transparent (R124). -/
def cellFor (s : State) (pal : BitVec 3) (c : BitVec 2) : Option LineEntry :=
  if c != 0 then some (.set pal (.ix c))
  else if s.reg.ctrl.kangaroo then some (.set pal .bg)
  else none

/-- `PutCell(x, p, c)` (R124 to R126). -/
def putCell (x : Pos) (pal : BitVec 3) (c : BitVec 2) (s : State) : State :=
  let t := pipelineTarget s.par x
  if t ≥ Config.lineCells then s
  else
    match cellFor s pal c with
    | some e => setWriteBuffer s ((writeBuffer s).set t e)
    | none => s

/-- `SwapLineBuffers` (R130). -/
def swapLineBuffers (s : State) : State :=
  let s := { s with writeSel := !s.writeSel }
  setWriteBuffer s clearLine

/-! ## Coordinates -/

/-- `Tick` (R73). -/
def tick (s : State) : State :=
  if s.coord.scanline + 1 = vPeriod s.par then
    { s with coord := { frame := s.coord.frame + 1, scanline := 0, clock := 0 } }
  else { s with coord := { s.coord with scanline := s.coord.scanline + 1, clock := 0 } }

/-! ## The register port -/

/-- A read access returns a byte to the host and has no other effect (R140). -/
def drivePort (v : Byte) (s : State) : State := { s with portData := v }

/-- One access to an offset: a read returns `value`, a write has the effect `onWrite` (R140, R143). -/
def servePort (a : PortAccess) (value : Byte) (onWrite : Byte → State) (s : State) : State :=
  match a with
  | .read => drivePort value s
  | .write v => onWrite v

/-- The state with palette `p` replaced (R145). -/
def setPalette (p : BitVec 3) (v : Palette) (s : State) : State :=
  { s with reg := { s.reg with palette := putPalette s.reg.palette p v } }

/-! ## Host moves that are no instruction -/

/-- `Reset` (R169): memory, the bus, the parameters, the moves still waiting and the byte last read from the port are the
host's and stay. -/
def resetBlock (s : State) : State :=
  { State.resetWith s.par s.draws with
    mem := s.mem, busFaults := s.busFaults, inbox := s.inbox, portData := s.portData }

/-! ## Inspection -/

/-- The read-only snapshot of R167: zone, header, register bank, and of recent history the fault record (R159),
the last line's reads and its DMA cycles. -/
structure Snapshot where
  zone : Zone
  dl : Header
  reg : Regs
  fault : Option FaultRecord
  reads : List (Addr × ReadOp)
  dmaConsumed : Nat
  deriving DecidableEq, Repr

/-- Taking a snapshot: a function of the state, which it does not change (R167). -/
def snapshot (s : State) : Snapshot where
  zone := s.zone
  dl := s.dl
  reg := s.reg
  fault := s.fault
  reads := s.reads
  dmaConsumed := s.out.dmaConsumed

end Sys2Proof.Machine
end

