-- ==== Sys2Proof/Machine/Flags.lean ====
section
/-! DEFINITION. The flags of R36 that an operation computes: `exhausted` with the budget, the holey test, the DMA
conditions of a line, zone expiry, the DLI request and MSTAT. (`isEnd` and `isLong` are computed by `classify`, Decode.lean.) -/
namespace Sys2Proof.Machine

/-- The cost of one event (R105, R108): a holey event costs `COST[GraphicsHoley]` whatever its kind. -/
def eventCost (s : State) (kind : EventKind) (holey : Bool) : Nat :=
  costOf s.par (if holey then .graphicsHoley else kind)

/-- `Charge(kind, holey)` (R108). -/
def charge (kind : EventKind) (holey : Bool) (s : State) : Bool × State :=
  if s.exhausted then (false, s)
  else
    let c := eventCost s kind holey
    if c ≤ s.budget then (true, { s with budget := s.budget - c })
    else (false, { s with budget := 0, exhausted := true })

/-- `Holey(A)` (R119, `HOLEY_BOTH = OR`). -/
def holey (s : State) (a : Addr) : Bool :=
  0x8000#16 ≤ a && ((s.zone.hole16 && a.getLsbD 12) || (s.zone.hole8 && a.getLsbD 11))

/-- The scanline lies in the DMA window (R77, R141). -/
def inDmaWindow (s : State) : Bool :=
  s.par.firstDmaLine ≤ s.coord.scanline && s.coord.scanline ≤ s.par.lastDmaLine

/-- `reg.ctrl.dmaLevel == 0b10` (R23, R76). -/
def dmaOn (s : State) : Bool := s.reg.ctrl.dmaLevel == 0b10#2

/-- The zone start-up event of a line (R80). -/
def zoneStartupKind (s : State) : EventKind :=
  if s.zone.remaining == 0 then .zoneStartupLastInZone else .zoneStartup

/-- The event a decoded header is charged as (R101). -/
def headerKind (s : State) : EventKind := if s.dl.isLong then .headerLong else .headerShort

/-- `RaiseDli` (R82): the request stands whether or not the overhead can be charged. -/
def raiseDli (s : State) : State :=
  (charge .interruptOverhead false { s with out := { s.out with dli := true } }).2

/-- `MSTAT()` (R141): bit 7 is 1 outside the DMA window; bits 6..0 read 0. -/
def mstat (s : State) : Byte := if inDmaWindow s then 0x00#8 else 0x80#8

end Sys2Proof.Machine
end

