-- ==== Sys2Proof/Machine/Resolver.lean ====
section
/-! DEFINITION. The palette resolver (45_resolver.md). -/
namespace Sys2Proof.Machine

/-- `READ_MODE_TABLE[00]` (R132): one colour, both pixels. -/
def readMode00 (pal : BitVec 3) (c : BitVec 2) (ps : Palettes) (background : Byte) : Byte × Byte :=
  let col := paletteColour ps background pal c
  (col, col)

/-- `READ_MODE_TABLE[11]` (R133): bit 1 is the left pixel, bit 0 the right; a 1 shows colour 2 of the palette. -/
def readMode11 (pal : BitVec 3) (c : BitVec 2) (ps : Palettes) (background : Byte) : Byte × Byte :=
  let shown := paletteColour ps background pal 2
  (if c.getLsbD 1 then shown else background, if c.getLsbD 0 then shown else background)

/-- The read-mode table (R24, R131); entries 01 and 10 are the opaque parameters (R134, R135; log 13). -/
def readModeTable (mode : BitVec 2) : BitVec 3 → BitVec 2 → Palettes → Byte → Byte × Byte :=
  match mode.toNat with
  | 0 => readMode00
  | 1 => Config.readModeTable01
  | 2 => Config.readModeTable10
  | _ => readMode11

/-- One cell as its pair of colour bytes (R131); unset and BG are the background in every read mode (R136). -/
def resolveCell (reg : Regs) : LineEntry → Byte × Byte
  | .unset => (reg.background, reg.background)
  | .set _ .bg => (reg.background, reg.background)
  | .set pal (.ix c) => readModeTable reg.ctrl.readMode pal c reg.palette reg.background

/-- `Resolve(rb)` (R131). -/
def resolve (reg : Regs) (rb : LineBuffer) : List (Byte × Byte) := rb.map (resolveCell reg)

/-- Part (a) of the scanline step (R76): the line output, with `colourKill` and `border` passed out (R138). -/
def outputLine (s : State) : State :=
  { s with
    out :=
      { s.out with
        line :=
          some
            { pairs := resolve s.reg (readBuffer s), colourKill := s.reg.ctrl.colourKill,
              border := s.reg.ctrl.border, lineIndex := s.coord.scanline } } }

end Sys2Proof.Machine
end

