-- ==== Sys2Proof/Machine/DisplayList.lean ====
section
/-! DEFINITION. The meanings of DL_END, DL_LONG and DL_SHORT: what decoding a header leaves (R96). -/
namespace Sys2Proof.Machine

/-- DL_END (R96, R97): clears five fields; `writeMode` and `dl.indirect` keep their values. -/
def execDlEnd (_ignored7 _ignored5 : Bool) (s : State) : Result :=
  .next
    { s with dl := { s.dl with isEnd := true, isLong := false, lo := 0, hi := 0, pal := 0, width := 0, hpos := 0 } }

/-- DL_LONG (R96, R98): the one instruction that writes the sticky `writeMode` (R28, R100). -/
def execDlLong (lo : Byte) (wm ind : Bool) (hi : Byte) (pal : BitVec 3) (wraw : BitVec 5) (hpos : Byte)
    (s : State) : Result :=
  .next
    { s with
      writeMode := wm
      dl :=
        { s.dl with
          isEnd := false, isLong := true, indirect := ind, lo := lo, hi := hi, pal := pal,
          width := decodeWidth wraw, hpos := hpos } }

/-- DL_SHORT (R96, R99): always direct; `writeMode` is not touched. -/
def execDlShort (lo : Byte) (pal : BitVec 3) (wraw : BitVec 5) (hi hpos : Byte) (s : State) : Result :=
  .next
    { s with
      dl :=
        { s.dl with
          isEnd := false, isLong := false, indirect := false, lo := lo, hi := hi, pal := pal,
          width := decodeWidth wraw, hpos := hpos } }

end Sys2Proof.Machine
end

