-- ==== Sys2Proof/Machine/Graphics.lean ====
section
/-! DEFINITION. The meanings of GFX_WM0, GFX_WM1 and CHARPTR. -/
namespace Sys2Proof.Machine

/-- The walker is past `n` more graphics bytes of the object (R115). -/
def passBytes (n : Nat) (s : State) : State := { s with gfxIndex := s.gfxIndex + n }

/-- The four cells of a write-mode-0 byte at `pos`, all with the header's palette (R122). -/
def writeCellsWm0 (pos : Pos) (c0 c1 c2 c3 : BitVec 2) (s : State) : State :=
  putCell (pos + 3) s.dl.pal c3
    (putCell (pos + 2) s.dl.pal c2 (putCell (pos + 1) s.dl.pal c1 (putCell pos s.dl.pal c0 s)))

/-- The two cells of a write-mode-1 byte at `pos`, the low palette bits from the data (R122). -/
def writeCellsWm1 (pos : Pos) (c0 c1 p0 p1 : BitVec 2) (s : State) : State :=
  putCell (pos + 1) (wm1Palette s.dl.pal p1) c1 (putCell pos (wm1Palette s.dl.pal p0) c0 s)

/-- A write-mode-0 byte of the object, at `dl.hpos +8 4*n` (R115, R122). -/
def graphicsByteWm0 (c0 c1 c2 c3 : BitVec 2) (s : State) : State :=
  passBytes 1 (writeCellsWm0 (bytePos (cellsPerByte false) s) c0 c1 c2 c3 s)

/-- A write-mode-1 byte of the object, at `dl.hpos +8 2*n` (R115, R122). -/
def graphicsByteWm1 (c0 c1 p0 p1 : BitVec 2) (s : State) : State :=
  passBytes 1 (writeCellsWm1 (bytePos (cellsPerByte true) s) c0 c1 p0 p1 s)

/-- GFX_WM0: the object's next byte (R122). -/
def execGfxWm0 (c0 c1 c2 c3 : BitVec 2) (s : State) : Result := .next (graphicsByteWm0 c0 c1 c2 c3 s)

/-- GFX_WM1: the object's next byte (R122). -/
def execGfxWm1 (c0 c1 p0 p1 : BitVec 2) (s : State) : Result := .next (graphicsByteWm1 c0 c1 p0 p1 s)

/-- `WriteGraphicsByte(b, pos)` at the object's next byte (R122), laid out by the write mode in force (R66, R123). -/
def writeGraphicsByte (b : Byte) (s : State) : State :=
  if s.writeMode then graphicsByteWm1 (bitsOf b 6 2) (bitsOf b 4 2) (bitsOf b 2 2) (bitsOf b 0 2) s
  else graphicsByteWm0 (bitsOf b 6 2) (bitsOf b 4 2) (bitsOf b 2 2) (bitsOf b 0 2) s

/-- The `n` graphics bytes of a character from `a` up: each read, then written (R118). -/
def drawCharacterBytes : Nat → Addr → State → Run
  | 0, _, s => .ok s
  | n + 1, a, s =>
    match busRead .graphicsRead a s with
    | .error h => .error h
    | .ok (b, s) => drawCharacterBytes n (a + 1) (writeGraphicsByte b s)

/-- One character of an indirect object, its index byte already read (R118): charged, then fetched and written
unless its graphics address is holey; a holey character still occupies its positions. -/
def drawCharacter (c : Byte) (s : State) : Run :=
  let g := characterBase s c
  let h := holey s g
  match charge (characterKind s) h s with
  | (false, s) => .ok s
  | (true, s) =>
    if h then .ok (passBytes (bytesPerCharacter s) s) else drawCharacterBytes (bytesPerCharacter s) g s

/-- CHARPTR (R118). A failing graphics read is taken: only `fault` changes (R156, R158; log 15). -/
def execCharptr (c : Byte) (s : State) : Result := conclude s (drawCharacter c s)

end Sys2Proof.Machine
end

