-- ==== Sys2Proof/Machine/Port.lean ====
section
/-! DEFINITION. The meanings of the register-port rows: `RegRead` (R140) and `RegWrite` (R143) at each offset. -/
namespace Sys2Proof.Machine

/-- REG_BACKGRND (R140, R144). -/
def execRegBackgrnd (a : PortAccess) (s : State) : Result :=
  .next (servePort a s.reg.background (fun v => { s with reg := { s.reg with background := v } }) s)

/-- REG_WSYNC: reads 0; a write of any byte pulses `out.wsync` (R140, R146). -/
def execRegWsync (a : PortAccess) (s : State) : Result :=
  .next (servePort a 0 (fun _ => { s with out := { s.out with wsync := true } }) s)

/-- REG_MSTAT: reads the status byte (R141); a write is ignored (R147). -/
def execRegMstat (a : PortAccess) (s : State) : Result :=
  .next (servePort a (mstat s) (fun _ => s) s)

/-- REG_DPPH: reads 0 (R140, R148). -/
def execRegDpph (a : PortAccess) (s : State) : Result :=
  .next (servePort a 0 (fun v => { s with reg := { s.reg with dpph := v } }) s)

/-- REG_DPPL: reads 0 (R140, R148). -/
def execRegDppl (a : PortAccess) (s : State) : Result :=
  .next (servePort a 0 (fun v => { s with reg := { s.reg with dppl := v } }) s)

/-- REG_CHBASE: reads 0 (R140, R149). -/
def execRegChbase (a : PortAccess) (s : State) : Result :=
  .next (servePort a 0 (fun v => { s with reg := { s.reg with chbase := v } }) s)

/-- REG_OFFSET: reads 0; the byte is stored and has no effect (R21, R140, R150). -/
def execRegOffset (a : PortAccess) (s : State) : Result :=
  .next (servePort a 0 (fun v => { s with reg := { s.reg with offset := v } }) s)

/-- REG_CTRL: reads 0 whatever was written (R140, R151). -/
def execRegCtrl (a : PortAccess) (s : State) : Result :=
  .next (servePort a 0 (fun v => { s with reg := { s.reg with ctrl := decodeCtrl v } }) s)

/-- REG_PALETTE_C1, `reg.palette[p][0]` (R140, R145). -/
def execRegPaletteC1 (p : BitVec 3) (a : PortAccess) (s : State) : Result :=
  .next
    (servePort a (getPalette s.reg.palette p).c1
      (fun v => setPalette p { getPalette s.reg.palette p with c1 := v } s) s)

/-- REG_PALETTE_C2, `reg.palette[p][1]` (R140, R145). -/
def execRegPaletteC2 (p : BitVec 3) (a : PortAccess) (s : State) : Result :=
  .next
    (servePort a (getPalette s.reg.palette p).c2
      (fun v => setPalette p { getPalette s.reg.palette p with c2 := v } s) s)

/-- REG_PALETTE_C3, `reg.palette[p][2]` (R140, R145). -/
def execRegPaletteC3 (p : BitVec 3) (a : PortAccess) (s : State) : Result :=
  .next
    (servePort a (getPalette s.reg.palette p).c3
      (fun v => setPalette p { getPalette s.reg.palette p with c3 := v } s) s)

end Sys2Proof.Machine
end

