-- ==== Sys2Proof/Machine/ZoneList.lean ====
section
/-! DEFINITION. The meaning of ZONE. -/
namespace Sys2Proof.Machine

/-- ZONE: the record's fields become the zone's; bit 4 of byte 0 is ignored (R69, R86). -/
def execZone (dli hole16 hole8 _ignored : Bool) (height : BitVec 4) (dlHi dlLo : Byte) (s : State) : Result :=
  .next
    { s with
      zone :=
        { s.zone with
          dli := dli, hole16 := hole16, hole8 := hole8, height := height, remaining := height, dlHi := dlHi,
          dlLo := dlLo } }

end Sys2Proof.Machine
end

