-- ==== Sys2Proof/Machine/Dispatch.lean ====
section
/-! DEFINITION. One arm for each constructor of Instr. -/
namespace Sys2Proof.Machine

def exec (i : Instr) (s : State) : Host.Outcome State Fault Refusal :=
  match i with
  | .zone dli hole16 hole8 ignored height dlHi dlLo => Sys2Proof.Machine.execZone dli hole16 hole8 ignored height dlHi dlLo s
  | .dlEnd ignored7 ignored5 => Sys2Proof.Machine.execDlEnd ignored7 ignored5 s
  | .dlLong lo wm ind hi pal wraw hpos => Sys2Proof.Machine.execDlLong lo wm ind hi pal wraw hpos s
  | .dlShort lo pal wraw hi hpos => Sys2Proof.Machine.execDlShort lo pal wraw hi hpos s
  | .gfxWm0 c0 c1 c2 c3 => Sys2Proof.Machine.execGfxWm0 c0 c1 c2 c3 s
  | .gfxWm1 c0 c1 p0 p1 => Sys2Proof.Machine.execGfxWm1 c0 c1 p0 p1 s
  | .charptr c => Sys2Proof.Machine.execCharptr c s
  | .regBackgrnd a => Sys2Proof.Machine.execRegBackgrnd a s
  | .regWsync a => Sys2Proof.Machine.execRegWsync a s
  | .regMstat a => Sys2Proof.Machine.execRegMstat a s
  | .regDpph a => Sys2Proof.Machine.execRegDpph a s
  | .regDppl a => Sys2Proof.Machine.execRegDppl a s
  | .regChbase a => Sys2Proof.Machine.execRegChbase a s
  | .regOffset a => Sys2Proof.Machine.execRegOffset a s
  | .regCtrl a => Sys2Proof.Machine.execRegCtrl a s
  | .regPaletteC1 p a => Sys2Proof.Machine.execRegPaletteC1 p a s
  | .regPaletteC2 p a => Sys2Proof.Machine.execRegPaletteC2 p a s
  | .regPaletteC3 p a => Sys2Proof.Machine.execRegPaletteC3 p a s

end Sys2Proof.Machine
end

