-- ==== Sys2Proof/Machine/Walker.lean ====
section
/-! DEFINITION. The walkers: fetching the zone records and headers the block runs as instructions, drawing an
object, and walking a display list. -/
namespace Sys2Proof.Machine

/-! ## Running a fetched instruction -/

/-- An instruction's answer inside a scanline step that has no fault so far: a bus error it took ends the step (R11). -/
def resume : Result → Run
  | .next s =>
    match s.fault with
    | none => .ok s
    | some f => .error (.busError f)
  | .fault r => .error (.fault r)
  | .refused r => .error (.refused r)

/-- Running a decoded instruction inside a scanline step. -/
def runInstr (i : Instr) (s : State) : Run := resume (exec i s)

/-! ## Zone list walker (41_zone_list.md) -/

/-- The three reads of `ReadZoneRecord`, offsets 0, 1, 2 (R47, R86). -/
def fetchZone (s : State) : Except Halt (Instr × State) := do
  let (b0, s) ← busRead .zoneRead s.zone.origin s
  let (b1, s) ← busRead .zoneRead (s.zone.origin + 1) s
  let (b2, s) ← busRead .zoneRead (s.zone.origin + 2) s
  .ok (decodeZone b0 b1 b2, s)

/-- `ReadZoneRecord` (R86). -/
def readZoneRecord (s : State) : Run := do
  let (i, s) ← fetchZone s
  runInstr i s

/-- The walker at the zone list's first record (R85). -/
def atZoneList (s : State) : State := { s with zone := { s.zone with origin := zoneListStart s, seq := 0 } }

/-- The walker at the zone list's next record (R88). -/
def atNextZone (s : State) : State :=
  { s with zone := { s.zone with seq := s.zone.seq + 1, origin := s.zone.origin + 3 } }

/-- `BeginFrame` (R85). -/
def beginFrame (s : State) : Run := readZoneRecord (atZoneList s)

/-- `AdvanceIfExpired` (R88): whether a new zone record was loaded, and the state after. -/
def advanceIfExpired (s : State) : Except Halt (Bool × State) :=
  if s.zone.remaining == 0 then do
    let s ← readZoneRecord (atNextZone s)
    .ok (true, s)
  else .ok (false, { s with zone := { s.zone with remaining := s.zone.remaining - 1 } })

/-! ## Display list walker (42_display_list.md) -/

/-- The reads of `DecodeHeader`: byte 1 first, then by class the others in rising order (R47, R96 to R99). -/
def fetchHeader (s : State) : Except Halt (Instr × State) := do
  let (m, s) ← busRead .headerRead (s.dl.origin + 1) s
  match classify m with
  | .endOfList => .ok (decodeEnd m, s)
  | .long => do
    let (b0, s) ← busRead .headerRead s.dl.origin s
    let (b2, s) ← busRead .headerRead (s.dl.origin + 2) s
    let (b3, s) ← busRead .headerRead (s.dl.origin + 3) s
    let (b4, s) ← busRead .headerRead (s.dl.origin + 4) s
    .ok (decodeLong b0 m b2 b3 b4, s)
  | .short => do
    let (b0, s) ← busRead .headerRead s.dl.origin s
    let (b2, s) ← busRead .headerRead (s.dl.origin + 2) s
    let (b3, s) ← busRead .headerRead (s.dl.origin + 3) s
    .ok (decodeShort b0 m b2 b3, s)

/-- `DecodeHeader` (R96). -/
def decodeHeader (s : State) : Run := do
  let (i, s) ← fetchHeader s
  runInstr i s

/-- The walker at the display list's first header (R93). -/
def atDisplayList (s : State) : State := { s with dl := { s.dl with origin := displayListStart s, seq := 0 } }

/-- The walker at the display list's next header, 4 or 5 bytes on (R94, R95). -/
def atNextHeader (s : State) : State :=
  { s with dl := { s.dl with seq := s.dl.seq + 1, origin := s.dl.origin + headerLength s.dl } }

/-- `BeginZone` (R93). -/
def beginZone (s : State) : Run := decodeHeader (atDisplayList s)

/-- `Advance` (R94). -/
def advance (s : State) : Run := decodeHeader (atNextHeader s)

/-! ## Objects (44_graphics_fetch.md) -/

/-- The byte loop of `DrawObject` (R117): `n` bytes left, the next at `base +16 j`. -/
def drawDirectBytes : Nat → Addr → State → Run
  | 0, _, s => .ok s
  | n + 1, a, s =>
    match charge .graphicsDirect false s with
    | (false, s) => .ok s
    | (true, s) => do
      let (b, s) ← busRead .graphicsRead a s
      let s ← runInstr (decodeGraphics s.writeMode b) s
      drawDirectBytes n (a + 1) s

/-- A direct object (R117): a holey one is charged once and fetches nothing (R120). -/
def drawDirect (s : State) : Run :=
  let base := directBase s
  if holey s base then .ok (charge .graphicsDirect true s).2 else drawDirectBytes s.dl.width base s

/-- The character loop of `DrawIndirect` (R118): `n` characters left, the next index at `a`. The character itself is the
instruction CHARPTR; its charge failed exactly if `exhausted` is set after it (R108). -/
def drawCharacters : Nat → Addr → State → Run
  | 0, _, s => .ok s
  | n + 1, a, s => do
    let (c, s) ← busRead .charPtrRead a s
    let s ← runInstr (.charptr c) s
    if s.exhausted then .ok s else drawCharacters n (a + 1) s

/-- `DrawObject` (R117, R118); the object's bytes are counted from 0 (R115). -/
def drawObject (s : State) : Run :=
  let s := { s with gfxIndex := 0 }
  if s.dl.indirect then drawCharacters s.dl.width (headerPointer s) s else drawDirect s

/-! ## The display-list loop (R101) -/

/-- The loop of `WalkDisplayList` (R101), with at most `n` passes. Under positive header costs a budget of `b` allows
at most `b + 1` passes (R102), so `walkDisplayList` never ends for want of passes (log 17). -/
def walkLoop : Nat → State → Run
  | 0, s => .ok s
  | n + 1, s =>
    if s.dl.isEnd then .ok s
    else
      match charge (headerKind s) false s with
      | (false, s) => .ok s
      | (true, s) => do
        let s ← drawObject s
        if s.exhausted then .ok s
        else
          let s ← advance s
          walkLoop n s

/-- `WalkDisplayList` (R101). -/
def walkDisplayList (s : State) : Run :=
  if s.exhausted then .ok s
  else do
    let s ← beginZone s
    walkLoop (s.budget + 1) s

end Sys2Proof.Machine
end

