-- ==== Sys2Proof/Machine/Sequencer.lean ====
section
/-! DEFINITION. The scanline step (40_sequencer.md) and the host's moves between scanline steps. -/
namespace Sys2Proof.Machine

/-- The start of part (b) of R76: a full budget, no request, no reads yet (R79). -/
def beginLine (s : State) : State :=
  { s with budget := s.par.dmaMaxCycles, exhausted := false, out := { s.out with dli := false }, reads := [] }

/-- The frame start on `FIRST_DMA_LINE` (R78). -/
def frameStart (s : State) : Run :=
  if s.coord.scanline = s.par.firstDmaLine then
    if dmaOn s then do
      let s ← beginFrame s
      let s := (charge .endOfBlank false { s with zoneValid := true }).2
      .ok (if s.par.dliOnFirstZone && s.zone.dli then raiseDli s else s)
    else .ok { s with zoneValid := false }
  else .ok s

/-- DMA runs on the line (R77). -/
def dmaRuns (s : State) : Bool := inDmaWindow s && dmaOn s && s.zoneValid

/-- The zone countdown after the display list, with the DLI of a record just loaded (R81, R82). -/
def countdown (s : State) : Run := do
  let (loaded, s) ← advanceIfExpired s
  .ok (if loaded && s.zone.dli then raiseDli s else s)

/-- The DMA of the line (R77, R80, R81). -/
def lineDma (s : State) : Run :=
  if dmaRuns s then do
    let s ← walkDisplayList (charge (zoneStartupKind s) false s).2
    countdown s
  else .ok s

/-- The end of the step: `out.dmaConsumed` (R83), the swap, the tick; the WSYNC pulse is over (R146). -/
def endLine (s : State) : State :=
  let s := { s with out := { s.out with dmaConsumed := s.par.dmaMaxCycles - s.budget, wsync := false }, gfxIndex := 0 }
  tick (swapLineBuffers s)

/-- The body of `StepScanline` (R76). -/
def scanline (s : State) : Run := do
  let s ← frameStart (beginLine (outputLine s))
  let s ← lineDma s
  .ok (endLine s)

/-- `StepScanline` (R76): stuck while a fault is recorded (R75, R159), refused under a zero header cost (R102),
and a bus error rolls the step back (R158). -/
def stepScanline (s : State) : Result :=
  match s.fault with
  | some f => .fault (.stuck f.addr f.op)
  | none => if headerCostsPositive s.par then conclude s (scanline s) else .refused .zeroHeaderCost

/-- A turn of the host (R50): its own moves are served whether or not a fault is recorded (R159). -/
def hostMove (m : HostMove) (s : State) : Result :=
  match m with
  | .port o a => exec (decodePort o a) s
  | .memWrite a v => .next { s with mem := s.mem.write a.toNat v }
  | .busFail a => .next { s with busFaults := insertAddr a.toNat s.busFaults }
  | .busAnswer a => .next { s with busFaults := removeAddr a.toNat s.busFaults }
  | .reset => .next (resetBlock s)
  | .scanline => stepScanline s

/-- One step: the host's first turn, taken off the inbox, or a scanline step if the host has no turn left (R50; log 1). -/
def stepOnce (s : State) : Result :=
  match s.inbox with
  | m :: rest => hostMove m { s with inbox := rest }
  | [] => stepScanline s

/-! ## Placing an instruction -/

/-- A state whose next scanline step is an ordinary DMA line under the test configuration with `cycles` DMA cycles
(log 8): line 17, DMA on, a zone in force with the given zone-list and display-list pointers. -/
def readyLine (s : State) (cycles : Nat) (zoneOrigin dl : Addr) (remaining : BitVec 4) : State :=
  { s with
    inbox := []
    fault := none
    busFaults := []
    par := { Config.testConfiguration with dmaMaxCycles := cycles }
    coord := { s.coord with scanline := 17 }
    reg := { s.reg with ctrl := { s.reg.ctrl with dmaLevel := 0b10#2 } }
    zoneValid := true
    zone := { s.zone with origin := zoneOrigin, dlHi := hiByte dl, dlLo := loByte dl, remaining := remaining } }

/-- The state with the bytes of an instruction placed where the next step fetches it (log 8).
A port access becomes the first host move. A zone record stands where the line's countdown reads the next record,
with no DMA cycles for a display list. A header stands first in the line's display list, with just the cycles of the
zone start-up, so that the line decodes it and draws nothing. A graphics byte or a character index is the one byte or
character of the one object of the line's display list, with just the cycles to draw it. -/
def placeInstr (s : State) (st : Stream) (bs : List Byte) : State :=
  match st with
  | .port =>
    match bs with
    | o :: _ :: v :: _ => { s with inbox := .port (bitsOf o 0 5) (.write v) :: s.inbox }
    | _ => s
  | .zoneList =>
    let s := readyLine s 0 0x1000#16 0x2000#16 0
    { s with mem := s.mem.writeAll 0x1003#16 bs }
  | .displayList =>
    let s := readyLine s 7 0x1000#16 0x2000#16 1
    { s with mem := s.mem.writeAll 0x2000#16 bs }
  | .graphics w =>
    let s := readyLine s 20 0x1000#16 0x2000#16 1
    let list := AsmLine.emit (.hdr5 0x3000#16 w false 0 1 0) ++ AsmLine.emit .endOfList
    { s with mem := (s.mem.writeAll 0x2000#16 list).writeAll 0x3100#16 bs }
  | .characters =>
    let s := readyLine s 26 0x1000#16 0x2000#16 1
    let list := AsmLine.emit (.hdr5 0x3000#16 false true 0 1 0) ++ AsmLine.emit .endOfList
    { s with mem := (s.mem.writeAll 0x2000#16 list).writeAll 0x3000#16 bs }

/-- `State.withFetchWord`'s body (Step.lean). -/
def placeTableWord (s : State) (nbits w : Nat) : State :=
  match tableBytes nbits w with
  | some (st, bs) => placeInstr s st bs
  | none => s

end Sys2Proof.Machine
end

