-- ==== Sys2Proof/Machine/Step.lean ====
section
/-! DEFINITION. The step of the machine, and the placing of an instruction for its next step. -/
namespace Sys2Proof.Machine

/-- One step (R50, R76): `stepOnce`. -/
def step (s : State) : Host.Outcome State Fault Refusal := stepOnce s

/-- The state with an opcode-table word placed where the next step fetches its instruction: `placeTableWord`. -/
def State.withFetchWord (s : State) (nbits w : Nat) : State := placeTableWord s nbits w

end Sys2Proof.Machine
end

