-- ==== Sys2Proof/Safety.lean ====
section
/-! DEFINITION. What a good state is, and what a safe run is: the terms claims are stated in. -/
namespace Sys2Proof.Machine

/-- The invariants of 10_state.md and 43_dma_accounting.md at a step boundary. -/
structure State.Inv (s : State) : Prop where
  /-- The memory and the set of failing addresses are in canonical form. -/
  memory : s.mem.wf = true
  busFaults : risingFrom 0 s.busFaults = true
  /-- The coordinates are in range, `clock` is 0 at a step boundary (R16). -/
  scanline : s.coord.scanline < vPeriod s.par
  clock : s.coord.clock = 0
  /-- `remaining ≤ height` (R25). -/
  countdown : s.zone.remaining ≤ s.zone.height
  /-- Widths are at most 32 (R27), and an end position has the fields R97 clears. -/
  width : s.dl.width ≤ 32
  endCleared : s.dl.isEnd = true →
    s.dl.isLong = false ∧ s.dl.lo = 0 ∧ s.dl.hi = 0 ∧ s.dl.pal = 0 ∧ s.dl.width = 0 ∧ s.dl.hpos = 0
  /-- `0 ≤ budget ≤ DMA_MAX_CYCLES`, and `exhausted` implies `budget = 0` (R112). -/
  budget : s.budget ≤ s.par.dmaMaxCycles
  exhausted : s.exhausted = true → s.budget = 0
  /-- Both line buffers have `LINE_CELLS` cells (R31), and a line output has as many pairs (R34). -/
  buf0 : s.buf0.length = Config.lineCells
  buf1 : s.buf1.length = Config.lineCells
  line : ∀ l, s.out.line = some l → l.pairs.length = Config.lineCells
  /-- No object is being drawn at a step boundary (R115; log 10). -/
  gfxIndex : s.gfxIndex = 0

/-- A step from a safe state runs: no bus error is recorded (R75) and the header costs are positive (R102). -/
def State.canStep (s : State) : Prop := s.fault = none ∧ headerCostsPositive s.par = true

/-- The next step is a scanline step: no host move stands before it (R50; log 1). -/
def State.blockTurn (s : State) : Prop := s.inbox = [] ∨ ∃ rest, s.inbox = .scanline :: rest

/-- The state with the host's first turn taken off, in which the scanline step runs (log 1). -/
def State.afterTurn (s : State) : State := { s with inbox := s.inbox.tail }

/-- A zone that the record at its origin has just become, byte for byte (R86). -/
def State.zoneIsRecord (s : State) (z : Zone) : Prop :=
  ∃ b0, busByte s z.origin = some b0 ∧ z.dli = b0.getLsbD 7 ∧ z.hole16 = b0.getLsbD 6 ∧ z.hole8 = b0.getLsbD 5 ∧
    z.height = b0.extractLsb' 0 4 ∧ z.remaining = b0.extractLsb' 0 4 ∧ busByte s (z.origin + 1) = some z.dlHi ∧
    busByte s (z.origin + 2) = some z.dlLo

/-- `n` calls of `AdvanceIfExpired`, with what each returned (R88, R89). -/
def advanceTimes : Nat → State → Except Halt (List Bool × State)
  | 0, s => .ok ([], s)
  | n + 1, s => do
    let (b, s) ← advanceIfExpired s
    let (bs, s) ← advanceTimes n s
    .ok (b :: bs, s)

/-- The state at the start of part (b) of a scanline step, before the frame start (R76). -/
def lineStart (s : State) : State := beginLine (outputLine s)

/-- The state with the zone start-up of the line charged (R80). -/
def lineCharged (s : State) : State := (charge (zoneStartupKind (lineStart s)) false (lineStart s)).2

/-- `t` comes from `s` by `n` steps. -/
def reaches (n : Nat) (s t : State) : Prop := Host.Core.run Sys2Proof.core n s = .next t

end Sys2Proof.Machine
end

