-- ==== Sys2Proof/Certificates/Slice0/Obligations.lean ====
section
/-! DEFINITION. The statements for the provers. Each docstring names the rule of spec/ it formalises. An equation
`exec i s = .next { s with … }` is result, completion and frame at once: every field not written out keeps its value. -/

open Sys2Proof Sys2Proof.Machine

/-! ## Encoding -/

/-- Decoding an encoded well-formed instruction gives it back, with the bytes after it (R57 to R72). For the eleven register
rows the offset is R70's; the direction and value bytes are the model's own encoding (log 6, DESIGN CHOICE). -/
def Obligations.DecodeOfEncodeIsTheInstruction : Prop :=
  ∀ (i : Instr) (rest : List Byte), i.wellFormed = true → decode i.stream (encode i ++ rest) = .ok (i, rest)

/-- Encoding a decoded instruction gives its bytes back, and what is decoded is well-formed. Byte 0 of an end position is not
decoded (R64, R69), so there the bytes come back with byte 0 cleared. A port access's direction and value bytes are the
model's own encoding (log 6, DESIGN CHOICE). -/
def Obligations.EncodeOfDecodeIsTheBytes : Prop :=
  ∀ (st : Stream) (bs rest : List Byte) (i : Instr), decode st bs = .ok (i, rest) →
    i.wellFormed = true ∧ i.stream = st ∧
    ((∀ a b, i ≠ .dlEnd a b) → encode i ++ rest = bs) ∧
    (∀ a b, i = .dlEnd a b → encode i ++ rest = 0#8 :: bs.tail)

/-- A few records written out byte by byte from the layouts of R57, R58, R60, R61, R66 and R67 decode to what they stand for;
and a port access with the offset of R17, whose direction and value bytes are the model's own encoding (log 6, DESIGN CHOICE).
-/
def Obligations.WrittenOutRecordsDecode : Prop :=
  decode .zoneList [0xE7#8, 0x18#8, 0x20#8] = .ok (.zone true true true false 7#4 0x18#8 0x20#8, []) ∧
  decode .displayList [0x00#8, 0xA0#8] = .ok (.dlEnd true true, []) ∧
  decode .displayList [0x00#8, 0xC0#8, 0x40#8, 0xBE#8, 0x14#8] =
    .ok (.dlLong 0x00#8 true false 0x40#8 5#3 0x1E#5 0x14#8, []) ∧
  decode .displayList [0x00#8, 0x5C#8, 0x18#8, 0x0A#8] = .ok (.dlShort 0x00#8 2#3 0x1C#5 0x18#8 0x0A#8, []) ∧
  decode (.graphics false) [0x6C#8] = .ok (.gfxWm0 1#2 2#2 3#2 0#2, []) ∧
  decode (.graphics true) [0xD9#8] = .ok (.gfxWm1 3#2 1#2 2#2 1#2, []) ∧
  decode .characters [0x02#8] = .ok (.charptr 0x02#8, []) ∧
  decode .port [0x1D#8, 0#8, 0x0F#8] = .ok (.regPaletteC1 7#3 (.write 0x0F#8), [])

/-- R59, which the spec marks as derived from R58: the three header classes are disjoint and cover all values of byte 1. -/
def Obligations.HeaderClassesPartitionTheModeByte : Prop :=
  ∀ m : Byte,
    (classify m = .endOfList ↔ m = 0x00#8 ∨ m = 0x20#8 ∨ m = 0x80#8 ∨ m = 0xA0#8) ∧
    (classify m = .long ↔ m = 0x40#8 ∨ m = 0x60#8 ∨ m = 0xC0#8 ∨ m = 0xE0#8) ∧
    (classify m = .short ↔ classify m ≠ .endOfList ∧ classify m ≠ .long) ∧
    ¬ (isEndMode m = true ∧ isLongMode m = true)

/-- R63, with the width decode of R62: a short header never has raw width 0; short headers encode widths 1..31, long headers
1..32. That the width is 32 less the raw field is R62's equivalence, which the spec marks as derived. -/
def Obligations.ShortHeadersEncodeWidths1To31 : Prop :=
  (∀ w : BitVec 5, decodeWidth w = 32 - w.toNat) ∧
  (∀ m : Byte, bitsOf m 0 5 = 0#5 →
    (bitOf m 6 = false → m &&& 0x5F#8 = 0x00#8 ∧ classify m = .endOfList) ∧
    (bitOf m 6 = true → m &&& 0x5F#8 = 0x40#8 ∧ classify m = .long)) ∧
  (∀ m : Byte, classify m = .short → bitsOf m 0 5 ≠ 0#5 ∧ 1 ≤ decodeWidth (bitsOf m 0 5) ∧ decodeWidth (bitsOf m 0 5) ≤ 31) ∧
  (∀ n, 1 ≤ n → n ≤ 31 → ∃ m : Byte, classify m = .short ∧ decodeWidth (bitsOf m 0 5) = n) ∧
  (∀ n, 1 ≤ n → n ≤ 32 → ∃ w : BitVec 5, decodeWidth w = n)

/-- The assembler notation (R71): each line's bytes decode to the record it names; an HDR4 line is always a short header. -/
def Obligations.AssembledLinesDecode : Prop :=
  (∀ d a b n dl, decode .zoneList (AsmLine.emit (.zone d a b n dl)) =
    .ok (.zone d a b false n (hiByte dl) (loByte dl), [])) ∧
  (∀ gfx pal w hpos, 1 ≤ w → w ≤ 31 →
    ∃ wraw, decodeWidth wraw = w ∧
      decode .displayList (AsmLine.emit (.hdr4 gfx pal w hpos)) =
        .ok (.dlShort (loByte gfx) pal wraw (hiByte gfx) hpos, [])) ∧
  (∀ gfx wm ind pal w hpos, 1 ≤ w → w ≤ 32 →
    ∃ wraw, decodeWidth wraw = w ∧
      decode .displayList (AsmLine.emit (.hdr5 gfx wm ind pal w hpos)) =
        .ok (.dlLong (loByte gfx) wm ind (hiByte gfx) pal wraw hpos, [])) ∧
  decode .displayList (AsmLine.emit .endOfList) = .ok (.dlEnd false false, [])

/-- R70: the register a port offset selects. The spec marks the offset map as its own decision (92, D3). -/
def Obligations.PortOffsetsSelectTheirRegisters : Prop :=
  ∀ (a : PortAccess) (p : BitVec 3),
    decodePort (p ++ 1#2) a = .regPaletteC1 p a ∧ decodePort (p ++ 2#2) a = .regPaletteC2 p a ∧
    decodePort (p ++ 3#2) a = .regPaletteC3 p a ∧
    decodePort 0x00#5 a = .regBackgrnd a ∧ decodePort 0x04#5 a = .regWsync a ∧ decodePort 0x08#5 a = .regMstat a ∧
    decodePort 0x0C#5 a = .regDpph a ∧ decodePort 0x10#5 a = .regDppl a ∧ decodePort 0x14#5 a = .regChbase a ∧
    decodePort 0x18#5 a = .regOffset a ∧ decodePort 0x1C#5 a = .regCtrl a

/-! ## What each instruction does -/

/-- ZONE (R86): the record's fields become the zone's, `remaining` is `height`, bit 4 of byte 0 has no effect (R69); nothing
else changes. -/
def Obligations.ZoneRecordBecomesTheZone : Prop :=
  ∀ (dli h16 h8 ignored : Bool) (height : BitVec 4) (hi lo : Byte) (s : State),
    exec (.zone dli h16 h8 ignored height hi lo) s =
      .next
        { s with
          zone :=
            { origin := s.zone.origin, seq := s.zone.seq, dli := dli, hole16 := h16, hole8 := h8, height := height,
              remaining := height, dlHi := hi, dlLo := lo } }

/-- DL_END, DL_LONG, DL_SHORT (R96 to R99): what each leaves in the header; `writeMode` changes in a long header only. That an
end sentinel keeps `dl.indirect` is the spec's own decision (92, D40). -/
def Obligations.HeadersBecomeTheHeaderState : Prop :=
  ∀ s : State,
    (∀ a b, exec (.dlEnd a b) s =
      .next
        { s with
          dl :=
            { origin := s.dl.origin, seq := s.dl.seq, isLong := false, indirect := s.dl.indirect, isEnd := true, lo := 0,
              hi := 0, pal := 0, width := 0, hpos := 0 } }) ∧
    (∀ lo wm ind hi pal wraw hpos, exec (.dlLong lo wm ind hi pal wraw hpos) s =
      .next
        { s with
          writeMode := wm
          dl :=
            { origin := s.dl.origin, seq := s.dl.seq, isLong := true, indirect := ind, isEnd := false, lo := lo,
              hi := hi, pal := pal, width := 32 - wraw.toNat, hpos := hpos } }) ∧
    (∀ lo pal wraw hi hpos, exec (.dlShort lo pal wraw hi hpos) s =
      .next
        { s with
          dl :=
            { origin := s.dl.origin, seq := s.dl.seq, isLong := false, indirect := false, isEnd := false, lo := lo,
              hi := hi, pal := pal, width := 32 - wraw.toNat, hpos := hpos } })

/-- R122: the cells of a graphics byte in each write mode, at the object's next byte position `dl.hpos +8 cpb*n` (R115);
`gfxIndex`, the model's n (log 10), goes on by one. `writeGraphicsByte`, with which CHARPTR draws its bytes, is the
instruction decoded in the write mode in force (R123). The spec marks both layouts "from general knowledge, not in source".
R122 picks the layout by `writeMode`; that an instruction keeps its own whatever `writeMode` holds is the model's choice (log
16). -/
def Obligations.GraphicsBytesWriteTheirCells : Prop :=
  ∀ s : State,
    (∀ c0 c1 c2 c3, ∀ pos, pos = s.dl.hpos + BitVec.ofNat 8 (4 * s.gfxIndex) →
      exec (.gfxWm0 c0 c1 c2 c3) s =
        .next
          (passBytes 1
            (putCell (pos + 3) s.dl.pal c3
              (putCell (pos + 2) s.dl.pal c2 (putCell (pos + 1) s.dl.pal c1 (putCell pos s.dl.pal c0 s)))))) ∧
    (∀ c0 c1 p0 p1, ∀ pos, pos = s.dl.hpos + BitVec.ofNat 8 (2 * s.gfxIndex) →
      exec (.gfxWm1 c0 c1 p0 p1) s =
        .next
          (passBytes 1
            (putCell (pos + 1) ((s.dl.pal &&& 4#3) ||| p1.setWidth 3) c1
              (putCell pos ((s.dl.pal &&& 4#3) ||| p0.setWidth 3) c0 s)))) ∧
    (∀ b : Byte, exec (decodeGraphics s.writeMode b) s = .next (writeGraphicsByte b s)) ∧
    (∀ b : Byte, exec (decodeGraphics false b) s =
      exec (.gfxWm0 (b.extractLsb' 6 2) (b.extractLsb' 4 2) (b.extractLsb' 2 2) (b.extractLsb' 0 2)) s) ∧
    (∀ b : Byte, exec (decodeGraphics true b) s =
      exec (.gfxWm1 (b.extractLsb' 6 2) (b.extractLsb' 4 2) (b.extractLsb' 2 2) (b.extractLsb' 0 2)) s)

/-- R124: `PutCell` writes one cell of the write buffer, at `(x - PIPELINE_LENGTH) mod 256`, or nothing; every other cell, the
read buffer and every other field stay. -/
def Obligations.PutCellWritesOneCellOrNone : Prop :=
  ∀ (x : Pos) (p : BitVec 3) (c : BitVec 2) (s : State) (t : Nat),
    t = (x.toNat + 256 - s.par.pipelineLength % 256) % 256 →
    (160 ≤ t → putCell x p c s = s) ∧
    (c = 0#2 → s.reg.ctrl.kangaroo = false → putCell x p c s = s) ∧
    (t < 160 → c ≠ 0#2 →
      putCell x p c s = setWriteBuffer s ((writeBuffer s).set t (.set p (.ix c)))) ∧
    (t < 160 → c = 0#2 → s.reg.ctrl.kangaroo = true →
      putCell x p c s = setWriteBuffer s ((writeBuffer s).set t (.set p .bg))) ∧
    (∀ y, y ≠ t → (writeBuffer (putCell x p c s))[y]? = (writeBuffer s)[y]?) ∧
    readBuffer (putCell x p c s) = readBuffer s

/-- CHARPTR (R118): a character whose charge fits and whose bytes the bus answers is drawn: charged by its kind, its one byte
(`charWidth` 1) or two bytes (0) at `((chbase << 8) | c) +16 (remaining << 8)` read and written in turn; a holey character is
charged `GraphicsHoley`, reads and writes nothing, and still occupies its positions. The spec marks R118's addressing "from
general knowledge, not in source"; `gfxIndex` is the model's (log 10). -/
def Obligations.CharactersAreDrawn : Prop :=
  ∀ (c : Byte) (s : State) (g : Addr),
    g = BitVec.ofNat 16 (256 * s.reg.chbase.toNat + c.toNat + 256 * s.zone.remaining.toNat) → s.exhausted = false →
    (holey s g = true → s.par.cost.graphicsHoley ≤ s.budget →
      exec (.charptr c) s =
        .next
          { s with
            budget := s.budget - s.par.cost.graphicsHoley
            gfxIndex := s.gfxIndex + (if s.reg.ctrl.charWidth then 1 else 2) }) ∧
    (∀ b, holey s g = false → s.reg.ctrl.charWidth = true → s.par.cost.graphicsIndirect ≤ s.budget →
      busByte s g = some b →
      exec (.charptr c) s =
        .next
          (writeGraphicsByte b
            { s with
              budget := s.budget - s.par.cost.graphicsIndirect, reads := s.reads ++ [(g, .graphicsRead)] })) ∧
    (∀ b b', holey s g = false → s.reg.ctrl.charWidth = false → s.par.cost.graphicsIndirectWide ≤ s.budget →
      busByte s g = some b → busByte s (g + 1) = some b' →
      ∀ u, u = writeGraphicsByte b
            { s with
              budget := s.budget - s.par.cost.graphicsIndirectWide, reads := s.reads ++ [(g, .graphicsRead)] } →
      exec (.charptr c) s =
        .next (writeGraphicsByte b' { u with reads := u.reads ++ [(g + 1, .graphicsRead)] }))

/-- CHARPTR where it is cut short: a failing charge takes the rest of the budget and draws nothing (R108, R110, R118); a
graphics byte the bus does not answer is taken as a bus error, with everything else as before (R156, R158; that the
instruction rolls back to its own start is the model's choice, log 15). -/
def Obligations.CharactersAreTruncatedOrFault : Prop :=
  ∀ (c : Byte) (s : State),
    (s.exhausted = true → exec (.charptr c) s = .next s) ∧
    (s.exhausted = false →
      s.budget < eventCost s (characterKind s) (holey s (characterBase s c)) →
      exec (.charptr c) s = .next { s with budget := 0, exhausted := true }) ∧
    (s.exhausted = false → holey s (characterBase s c) = false →
      eventCost s (characterKind s) false ≤ s.budget → busByte s (characterBase s c) = none →
      exec (.charptr c) s =
        .next { s with fault := some { kind := .busError, addr := characterBase s c, op := .graphicsRead } }) ∧
    (∀ b, s.exhausted = false → holey s (characterBase s c) = false → s.reg.ctrl.charWidth = false →
      eventCost s (characterKind s) false ≤ s.budget → busByte s (characterBase s c) = some b →
      busByte s (characterBase s c + 1) = none →
      exec (.charptr c) s =
        .next { s with fault := some { kind := .busError, addr := characterBase s c + 1, op := .graphicsRead } })

/-- R143 for the offsets that are no palette's: a write stores its byte in its register and changes nothing else; WSYNC pulses
`out.wsync`, MSTAT is ignored, CTRL is split into its fields (R144, R146 to R151). The offsets (92, D3) and CTRL's bit
positions (92, D4) are the spec's own decisions (log 18). -/
def Obligations.PortWritesStoreTheirRegister : Prop :=
  ∀ (v : Byte) (s : State),
    exec (decodePort 0x00#5 (.write v)) s = .next { s with reg := { s.reg with background := v } } ∧
    exec (decodePort 0x04#5 (.write v)) s = .next { s with out := { s.out with wsync := true } } ∧
    exec (decodePort 0x08#5 (.write v)) s = .next s ∧
    exec (decodePort 0x0C#5 (.write v)) s = .next { s with reg := { s.reg with dpph := v } } ∧
    exec (decodePort 0x10#5 (.write v)) s = .next { s with reg := { s.reg with dppl := v } } ∧
    exec (decodePort 0x14#5 (.write v)) s = .next { s with reg := { s.reg with chbase := v } } ∧
    exec (decodePort 0x18#5 (.write v)) s = .next { s with reg := { s.reg with offset := v } } ∧
    exec (decodePort 0x1C#5 (.write v)) s =
      .next
        { s with
          reg :=
            { s.reg with
              ctrl :=
                { colourKill := v.getLsbD 7, dmaLevel := v.extractLsb' 5 2, charWidth := v.getLsbD 4,
                  border := v.getLsbD 3, kangaroo := v.getLsbD 2, readMode := v.extractLsb' 0 2 } } }

/-- R145: a palette write sets one byte of one palette; the other two bytes, the other palettes and everything else stay. -/
def Obligations.PaletteWritesSetOneByte : Prop :=
  ∀ (p : BitVec 3) (v : Byte) (s : State),
    (∃ ps, exec (decodePort (p ++ 1#2) (.write v)) s = .next { s with reg := { s.reg with palette := ps } } ∧
      getPalette ps p = { getPalette s.reg.palette p with c1 := v } ∧
      ∀ q, q ≠ p → getPalette ps q = getPalette s.reg.palette q) ∧
    (∃ ps, exec (decodePort (p ++ 2#2) (.write v)) s = .next { s with reg := { s.reg with palette := ps } } ∧
      getPalette ps p = { getPalette s.reg.palette p with c2 := v } ∧
      ∀ q, q ≠ p → getPalette ps q = getPalette s.reg.palette q) ∧
    (∃ ps, exec (decodePort (p ++ 3#2) (.write v)) s = .next { s with reg := { s.reg with palette := ps } } ∧
      getPalette ps p = { getPalette s.reg.palette p with c3 := v } ∧
      ∀ q, q ≠ p → getPalette ps q = getPalette s.reg.palette q)

/-- R140, with MSTAT of R141: what a read of each offset returns (to `portData`, the model's place for it, log 9); a read has
no other effect. That BACKGRND and the palettes read back what was written is the spec's own reading (R142; 92, D28; log 23,
DEDUCED), and it marks MSTAT's bit 7 "from general knowledge, not in source". -/
def Obligations.PortReadsReturnTheirByte : Prop :=
  ∀ s : State,
    exec (decodePort 0x00#5 .read) s = .next { s with portData := s.reg.background } ∧
    exec (decodePort 0x08#5 .read) s =
      .next
        { s with
          portData :=
            if s.coord.scanline < s.par.firstDmaLine ∨ s.par.lastDmaLine < s.coord.scanline then 0x80#8 else 0x00#8 } ∧
    (∀ o, o = 0x04#5 ∨ o = 0x0C#5 ∨ o = 0x10#5 ∨ o = 0x14#5 ∨ o = 0x18#5 ∨ o = 0x1C#5 →
      exec (decodePort o .read) s = .next { s with portData := 0 }) ∧
    (∀ p : BitVec 3,
      exec (decodePort (p ++ 1#2) .read) s = .next { s with portData := (getPalette s.reg.palette p).c1 } ∧
      exec (decodePort (p ++ 2#2) .read) s = .next { s with portData := (getPalette s.reg.palette p).c2 } ∧
      exec (decodePort (p ++ 3#2) .read) s = .next { s with portData := (getPalette s.reg.palette p).c3 })

/-! ## Rules over all instructions -/

/-- Every instruction answers a next state, in every state: no encoding is illegal (R68), no port access faults (R153), and a
bus error is recorded in a next state (R156, R158); that CHARPTR by itself records it at once is the model's choice (log 15).
-/
def Obligations.EveryInstructionAnswersANextState : Prop :=
  ∀ (i : Instr) (s : State), ∃ t, exec i s = .next t

/-- Frame of all instructions: none changes the coordinates, `zoneValid`, `writeSel`, the read buffer, the bus and memory
(read one byte at a time), the parameters, the host's moves or the draws; a port access changes only registers, `out.wsync`
and `portData`; no other instruction changes a register, an output or `portData` (R16, R32, R45, R165). -/
def Obligations.InstructionsKeepWhatIsNotTheirs : Prop :=
  ∀ (i : Instr) (s t : State), exec i s = .next t →
    t.coord = s.coord ∧ t.zoneValid = s.zoneValid ∧ t.writeSel = s.writeSel ∧ readBuffer t = readBuffer s ∧
    (∀ a, busByte t a = busByte s a) ∧ t.par = s.par ∧ t.inbox = s.inbox ∧ t.draws = s.draws ∧
    (i.stream = .port →
      t = { s with reg := t.reg, out := { s.out with wsync := t.out.wsync }, portData := t.portData }) ∧
    (i.stream ≠ .port → t.reg = s.reg ∧ t.out = s.out ∧ t.portData = s.portData)

/-- R28, R100: of all instructions only a long header writes `writeMode`, with its wm bit; and of the host's moves only a
reset. -/
def Obligations.OnlyLongHeadersWriteTheWriteMode : Prop :=
  (∀ (lo : Byte) (wm ind : Bool) (hi : Byte) (pal : BitVec 3) (wraw : BitVec 5) (hpos : Byte) (s t : State),
    exec (.dlLong lo wm ind hi pal wraw hpos) s = .next t → t.writeMode = wm) ∧
  (∀ (i : Instr) (s t : State), (∀ lo wm ind hi pal wraw hpos, i ≠ .dlLong lo wm ind hi pal wraw hpos) →
    exec i s = .next t → t.writeMode = s.writeMode) ∧
  (∀ (m : HostMove) (rest : List HostMove) (s t : State), s.inbox = m :: rest → m ≠ .reset →
    m ≠ .scanline → step s = .next t → t.writeMode = s.writeMode)

/-- R45: the block never writes memory. A scanline step, whatever it runs, leaves every byte the bus answers as it was. -/
def Obligations.ScanlineStepsNeverWriteMemory : Prop :=
  ∀ s t : State, s.blockTurn → step s = .next t → t.mem = s.mem ∧ ∀ a, busByte t a = busByte s a

/-- R165 with R16: a scanline step changes no register, parameter or host move; only a step of the block (its tick) or a reset
changes the coordinates. -/
def Obligations.OnlyTheOwnersChangeTheirState : Prop :=
  (∀ s t : State, s.blockTurn → step s = .next t →
    t.reg = s.reg ∧ t.par = s.par ∧ t.inbox = s.inbox.tail ∧ t.portData = s.portData ∧ t.draws = s.draws) ∧
  (∀ (m : HostMove) (rest : List HostMove) (s : State), s.inbox = m :: rest → m ≠ .scanline →
    ∃ t, step s = .next t ∧ t.inbox = rest ∧ t.par = s.par ∧
      (m ≠ .reset → t.coord = s.coord ∧ t.zone = s.zone ∧ t.dl = s.dl ∧ t.buf0 = s.buf0 ∧ t.buf1 = s.buf1 ∧
        t.budget = s.budget ∧ t.fault = s.fault))

/-! ## Fetching: a step runs the decoded instruction -/

/-- A waiting port access is the next step's instruction: `step` takes the move off and runs it. That a step of the model is
the host's first waiting move is the model's choice (log 1, DESIGN CHOICE), after R50 and R143. -/
def Obligations.StepRunsTheWaitingPortAccess : Prop :=
  ∀ (o : BitVec 5) (a : PortAccess) (rest : List HostMove) (s : State), s.inbox = .port o a :: rest →
    step s = exec (decodePort o a) { s with inbox := rest }

/-- What the walkers fetch they run: a header at `dl.origin` (R96), a zone record at `zone.origin` (R86), a graphics byte of a
direct object whose charge fits (R117), a character index (R118) is decoded and `exec` run on it, with the reads noted; an
instruction that took a bus error ends the step (`resume`, R11). A failing graphics read of a direct object and a failing
character-pointer read raise their bus errors, with their own operations (R155); a graphics byte whose charge fails is not
read (R110). -/
def Obligations.WalkersRunTheDecodedInstruction : Prop :=
  (∀ (s : State) (i : Instr) (rest : List Byte) (b0 b1 b2 b3 b4 : Byte),
    busByte s s.dl.origin = some b0 → busByte s (s.dl.origin + 1) = some b1 → busByte s (s.dl.origin + 2) = some b2 →
    busByte s (s.dl.origin + 3) = some b3 → busByte s (s.dl.origin + 4) = some b4 →
    decode .displayList [b0, b1, b2, b3, b4] = .ok (i, rest) →
    ∃ l, decodeHeader s = resume (exec i { s with reads := s.reads ++ l })) ∧
  (∀ (s : State) (i : Instr) (b0 b1 b2 : Byte),
    busByte s s.zone.origin = some b0 → busByte s (s.zone.origin + 1) = some b1 →
    busByte s (s.zone.origin + 2) = some b2 → decode .zoneList [b0, b1, b2] = .ok (i, []) →
    ∃ l, readZoneRecord s = resume (exec i { s with reads := s.reads ++ l })) ∧
  (∀ (s : State) (n : Nat) (a : Addr) (b : Byte) (i : Instr),
    s.exhausted = false → s.par.cost.graphicsDirect ≤ s.budget → busByte s a = some b →
    decode (.graphics s.writeMode) [b] = .ok (i, []) →
    drawDirectBytes (n + 1) a s =
      (resume
        (exec i
          { s with budget := s.budget - s.par.cost.graphicsDirect, reads := s.reads ++ [(a, .graphicsRead)] }) >>=
        drawDirectBytes n (a + 1))) ∧
  (∀ (s : State) (n : Nat) (a : Addr) (c : Byte) (i : Instr), busByte s a = some c →
    decode .characters [c] = .ok (i, []) →
    drawCharacters (n + 1) a s =
      (resume (exec i { s with reads := s.reads ++ [(a, .charPtrRead)] }) >>= fun t =>
        if t.exhausted then .ok t else drawCharacters n (a + 1) t)) ∧
  (∀ (s : State) (n : Nat) (a : Addr), s.exhausted = false →
    (s.budget < s.par.cost.graphicsDirect →
      drawDirectBytes (n + 1) a s = .ok { s with budget := 0, exhausted := true }) ∧
    (s.par.cost.graphicsDirect ≤ s.budget → busByte s a = none →
      drawDirectBytes (n + 1) a s = .error (.busError { kind := .busError, addr := a, op := .graphicsRead }))) ∧
  (∀ (s : State) (n : Nat) (a : Addr), busByte s a = none →
    drawCharacters (n + 1) a s = .error (.busError { kind := .busError, addr := a, op := .charPtrRead }))

/-- The step of a DMA line runs the first header of the zone's display list: on a line that is not the frame's first, with DMA
running and the zone start-up paid, the bytes at the display list's start decode to `i`, and the step is `exec i` there, then
the rest of the walk, the countdown, and the line's end, a bus error rolling all of it back (R76, R93, R101, R158). -/
def Obligations.StepRunsTheFirstHeaderOfTheLine : Prop :=
  ∀ (s : State) (i : Instr) (rest : List Byte) (a : Addr) (b0 b1 b2 b3 b4 : Byte),
    s.blockTurn → s.canStep → s.coord.scanline ≠ s.par.firstDmaLine → dmaRuns s = true →
    (lineCharged s.afterTurn).exhausted = false → a = displayListStart s →
    busByte s a = some b0 → busByte s (a + 1) = some b1 → busByte s (a + 2) = some b2 → busByte s (a + 3) = some b3 →
    busByte s (a + 4) = some b4 → decode .displayList [b0, b1, b2, b3, b4] = .ok (i, rest) →
    ∃ l, step s =
      conclude s.afterTurn
        (do
          let t ← resume (exec i { atDisplayList (lineCharged s.afterTurn) with reads := l })
          let t ← walkLoop (t.budget + 1) t
          let t ← countdown t
          .ok (endLine t))

/-! ## The zone list -/

/-- R86: `ReadZoneRecord` reads offsets 0, 1, 2 in order and loads every field; a failing read raises its bus error with
`ZoneRead`, and no later read is made. -/
def Obligations.ReadZoneRecordLoadsOrFaults : Prop :=
  ∀ (s : State) (a : Addr), s.fault = none → a = s.zone.origin →
    (busByte s a = none → readZoneRecord s = .error (.busError { kind := .busError, addr := a, op := .zoneRead })) ∧
    (busByte s a ≠ none → busByte s (a + 1) = none →
      readZoneRecord s = .error (.busError { kind := .busError, addr := a + 1, op := .zoneRead })) ∧
    (busByte s a ≠ none → busByte s (a + 1) ≠ none → busByte s (a + 2) = none →
      readZoneRecord s = .error (.busError { kind := .busError, addr := a + 2, op := .zoneRead })) ∧
    (∀ b0 b1 b2, busByte s a = some b0 → busByte s (a + 1) = some b1 → busByte s (a + 2) = some b2 →
      readZoneRecord s =
        .ok
          { s with
            reads := s.reads ++ [(a, .zoneRead), (a + 1, .zoneRead), (a + 2, .zoneRead)]
            zone :=
              { origin := s.zone.origin, seq := s.zone.seq, dli := b0.getLsbD 7, hole16 := b0.getLsbD 6,
                hole8 := b0.getLsbD 5, height := b0.extractLsb' 0 4, remaining := b0.extractLsb' 0 4, dlHi := b1,
                dlLo := b2 } })

/-- R88: `AdvanceIfExpired` loads the record 3 bytes on if `remaining` is 0, else counts down by one and reads nothing. -/
def Obligations.AdvanceIfExpiredLaw : Prop :=
  ∀ s : State,
    (s.zone.remaining ≠ 0 →
      advanceIfExpired s = .ok (false, { s with zone := { s.zone with remaining := s.zone.remaining - 1 } })) ∧
    (s.zone.remaining = 0 →
      advanceIfExpired s =
        (readZoneRecord { s with zone := { s.zone with seq := s.zone.seq + 1, origin := s.zone.origin + 3 } }).map
          fun t => (true, t))

/-- R89, the countdown law: after a record of height N is loaded, N calls of `AdvanceIfExpired` return 0 and leave `remaining`
at N-1, …, 0; the next call is the first to return 1, and it loads the record 3 bytes on. -/
def Obligations.ZonesLastHeightPlusOneCalls : Prop :=
  ∀ s : State, s.fault = none → s.zone.remaining = s.zone.height →
    (∀ k, k ≤ s.zone.height.toNat →
      advanceTimes k s =
        .ok
          (List.replicate k false,
            { s with zone := { s.zone with remaining := BitVec.ofNat 4 (s.zone.height.toNat - k) } })) ∧
    (∀ b0 b1 b2, busByte s (s.zone.origin + 3) = some b0 → busByte s (s.zone.origin + 4) = some b1 →
      busByte s (s.zone.origin + 5) = some b2 →
      ∃ t, advanceTimes (s.zone.height.toNat + 1) s = .ok (List.replicate s.zone.height.toNat false ++ [true], t) ∧
        t.zone.origin = s.zone.origin + 3 ∧ t.zone.height = b0.extractLsb' 0 4 ∧
        t.zone.remaining = b0.extractLsb' 0 4 ∧ t.zone.dlHi = b1 ∧ t.zone.dlLo = b2)

/-! ## Headers and the display list -/

/-- R97: an end position is recognised from byte 1 alone, at the four values; five fields are cleared, `writeMode` and
`dl.indirect` keep their values (for `dl.indirect` the spec's own decision, 92 D40), and no other byte is read. -/
def Obligations.DecodeHeaderOfAnEndSentinel : Prop :=
  ∀ (s : State) (m : Byte), s.fault = none → busByte s (s.dl.origin + 1) = some m →
    m = 0x00#8 ∨ m = 0x20#8 ∨ m = 0x80#8 ∨ m = 0xA0#8 →
    decodeHeader s =
      .ok
        { s with
          reads := s.reads ++ [(s.dl.origin + 1, .headerRead)]
          dl :=
            { origin := s.dl.origin, seq := s.dl.seq, isLong := false, indirect := s.dl.indirect, isEnd := true,
              lo := 0, hi := 0, pal := 0, width := 0, hpos := 0 } }

/-- R98 in R96: a long header's five bytes, in read order 1, 0, 2, 3, 4, and every field they give; raw width 0 is 32. -/
def Obligations.DecodeHeaderOfALongHeader : Prop :=
  ∀ (s : State) (a : Addr) (b0 m b2 pw b4 : Byte), s.fault = none → a = s.dl.origin → m &&& 0x5F#8 = 0x40#8 →
    busByte s (a + 1) = some m → busByte s a = some b0 → busByte s (a + 2) = some b2 → busByte s (a + 3) = some pw →
    busByte s (a + 4) = some b4 →
    decodeHeader s =
      .ok
        { s with
          reads :=
            s.reads ++
              [(a + 1, .headerRead), (a, .headerRead), (a + 2, .headerRead), (a + 3, .headerRead), (a + 4, .headerRead)]
          writeMode := m.getLsbD 7
          dl :=
            { origin := s.dl.origin, seq := s.dl.seq, isLong := true, indirect := m.getLsbD 5, isEnd := false,
              lo := b0, hi := b2, pal := pw.extractLsb' 5 3, width := 32 - pw.toNat % 32, hpos := b4 } }

/-- R99 in R96: a short header's four bytes, in read order 1, 0, 2, 3, and every field they give; always direct, `writeMode`
not touched. -/
def Obligations.DecodeHeaderOfAShortHeader : Prop :=
  ∀ (s : State) (a : Addr) (b0 m b2 b3 : Byte), s.fault = none → a = s.dl.origin → m &&& 0x5F#8 ≠ 0x00#8 →
    m &&& 0x5F#8 ≠ 0x40#8 → busByte s (a + 1) = some m → busByte s a = some b0 → busByte s (a + 2) = some b2 →
    busByte s (a + 3) = some b3 →
    decodeHeader s =
      .ok
        { s with
          reads := s.reads ++ [(a + 1, .headerRead), (a, .headerRead), (a + 2, .headerRead), (a + 3, .headerRead)]
          dl :=
            { origin := s.dl.origin, seq := s.dl.seq, isLong := false, indirect := false, isEnd := false, lo := b0,
              hi := b2, pal := m.extractLsb' 5 3, width := 32 - m.toNat % 32, hpos := b3 } }

/-- R96: the first failing header read raises its bus error with `HeaderRead`, in the read order of R47. -/
def Obligations.DecodeHeaderFaultsAtTheFirstFailingRead : Prop :=
  ∀ (s : State) (a : Addr), a = s.dl.origin →
    (busByte s (a + 1) = none →
      decodeHeader s = .error (.busError { kind := .busError, addr := a + 1, op := .headerRead })) ∧
    (∀ m, busByte s (a + 1) = some m → classify m ≠ .endOfList →
      (busByte s a = none →
        decodeHeader s = .error (.busError { kind := .busError, addr := a, op := .headerRead })) ∧
      (busByte s a ≠ none → busByte s (a + 2) = none →
        decodeHeader s = .error (.busError { kind := .busError, addr := a + 2, op := .headerRead })) ∧
      (busByte s a ≠ none → busByte s (a + 2) ≠ none → busByte s (a + 3) = none →
        decodeHeader s = .error (.busError { kind := .busError, addr := a + 3, op := .headerRead })) ∧
      (busByte s a ≠ none → busByte s (a + 2) ≠ none → busByte s (a + 3) ≠ none → busByte s (a + 4) = none →
        classify m = .long →
        decodeHeader s = .error (.busError { kind := .busError, addr := a + 4, op := .headerRead })))

/-- R85, R93, R94, R95: where the walkers stand when they fetch: `BeginFrame` at `(dpph << 8) | dppl` with `seq` 0;
`BeginZone` at `(dlHi << 8) | dlLo` with `seq` 0; `Advance` 5 bytes on after a long header, 4 after a short one, with `seq`
one up. -/
def Obligations.WalkersFetchAtTheirPointers : Prop :=
  ∀ s : State,
    beginFrame s =
      readZoneRecord
        { s with
          zone :=
            { s.zone with
              origin := BitVec.ofNat 16 (256 * s.reg.dpph.toNat + s.reg.dppl.toNat), seq := 0 } } ∧
    beginZone s =
      decodeHeader
        { s with
          dl :=
            { s.dl with
              origin := BitVec.ofNat 16 (256 * s.zone.dlHi.toNat + s.zone.dlLo.toNat), seq := 0 } } ∧
    advance s =
      decodeHeader
        { s with
          dl := { s.dl with seq := s.dl.seq + 1, origin := s.dl.origin + (if s.dl.isLong = true then 5 else 4) } }

/-- R101: the cases of one pass of the display-list loop: an end sentinel costs nothing and ends the walk; a header whose
charge fails is not drawn; a drawn header is followed by the next one unless the budget ran out. -/
def Obligations.DisplayListLoopPasses : Prop :=
  ∀ (n : Nat) (s : State) (cost : Nat), s.exhausted = false →
    cost = (if s.dl.isLong = true then s.par.cost.headerLong else s.par.cost.headerShort) →
    (s.dl.isEnd = true → walkLoop (n + 1) s = .ok s) ∧
    (s.dl.isEnd = false → s.budget < cost → walkLoop (n + 1) s = .ok { s with budget := 0, exhausted := true }) ∧
    (s.dl.isEnd = false → cost ≤ s.budget →
      walkLoop (n + 1) s =
        (drawObject { s with budget := s.budget - cost } >>= fun t =>
          if t.exhausted then .ok t else (advance t >>= fun u => walkLoop n u)))

/-- R102: under positive header costs the walk needs at most one pass more than its budget: more passes change nothing, so a
display list with no end sentinel ends too. A configuration with a zero header cost is refused. The spec marks R102 as derived
from R101 and R108; the count of passes is the model's `walkLoop` (log 17), the refusal log 12. -/
def Obligations.DisplayListWalkTerminates : Prop :=
  (∀ (s : State) (n : Nat), 1 ≤ s.par.cost.headerShort → 1 ≤ s.par.cost.headerLong → s.budget < n →
    walkLoop n s = walkLoop (s.budget + 1) s) ∧
  (∀ s : State, s.blockTurn → s.fault = none → (s.par.cost.headerShort = 0 ∨ s.par.cost.headerLong = 0) →
    step s = .refused .zeroHeaderCost)

/-! ## The accountant, holey DMA, objects -/

/-- R108: everything `Charge` does. -/
def Obligations.ChargeLaw : Prop :=
  ∀ (k : EventKind) (h : Bool) (s : State) (c : Nat),
    c = (if h = true then s.par.cost.graphicsHoley else costOf s.par k) →
    (s.exhausted = true → charge k h s = (false, s)) ∧
    (s.exhausted = false → c ≤ s.budget → charge k h s = (true, { s with budget := s.budget - c })) ∧
    (s.exhausted = false → s.budget < c → charge k h s = (false, { s with budget := 0, exhausted := true }))

/-- R119: the holey test, by the bits of the address; the strict comparison with 0x8000 gives the same. The spec marks
`hole8`'s bit 11 "from general knowledge, not in source". -/
def Obligations.HoleyLaw : Prop :=
  ∀ (s : State) (a : Addr),
    (holey s a = true ↔
      0x8000 ≤ a.toNat ∧
        ((s.zone.hole16 = true ∧ a.toNat.testBit 12 = true) ∨ (s.zone.hole8 = true ∧ a.toNat.testBit 11 = true))) ∧
    (holey s a = true ↔
      0x8000 < a.toNat ∧
        ((s.zone.hole16 = true ∧ a.toNat.testBit 12 = true) ∨ (s.zone.hole8 = true ∧ a.toNat.testBit 11 = true)))

/-- R120, R117: a holey direct object, whatever its width and whatever `kangaroo`, costs one `GraphicsHoley`, reads nothing
and writes no cell. -/
def Obligations.HoleyObjectsReadAndWriteNothing : Prop :=
  ∀ s : State, s.dl.indirect = false → s.exhausted = false → holey s (directBase s) = true →
    (s.par.cost.graphicsHoley ≤ s.budget →
      drawObject s = .ok { s with gfxIndex := 0, budget := s.budget - s.par.cost.graphicsHoley }) ∧
    (s.budget < s.par.cost.graphicsHoley →
      drawObject s = .ok { s with gfxIndex := 0, budget := 0, exhausted := true })

/-- R118: an indirect object runs `width` characters, their indices read from `P = (hi << 8) | lo` up, its graphics bytes
counted from 0. R117, R110, R127: a direct object that is not holey reads its bytes in order from `P +16 (remaining << 8)`,
one `GraphicsDirect` charge before each, either all `width` of them, or the first k, where the next charge did not fit and
took the rest of the line. R127 is derived by the spec from R117. -/
def Obligations.ObjectsReadFromTheirPointers : Prop :=
  (∀ s : State, s.dl.indirect = true →
    drawObject s =
      drawCharacters s.dl.width (BitVec.ofNat 16 (256 * s.dl.hi.toNat + s.dl.lo.toNat)) { s with gfxIndex := 0 }) ∧
  (∀ (a : Addr) (s : State), drawCharacters 0 a s = .ok s) ∧
  ∀ (s t : State) (base : Addr), s.fault = none → s.exhausted = false → s.dl.indirect = false →
    base = BitVec.ofNat 16 (256 * s.dl.hi.toNat + s.dl.lo.toNat + 256 * s.zone.remaining.toNat) →
    holey s base = false → drawObject s = .ok t →
    ∃ k, k ≤ s.dl.width ∧
      t.reads = s.reads ++ (List.range k).map (fun j => (base + BitVec.ofNat 16 j, ReadOp.graphicsRead)) ∧
      t.gfxIndex = k ∧ k * s.par.cost.graphicsDirect ≤ s.budget ∧
      ((k = s.dl.width ∧ t.exhausted = false ∧ t.budget = s.budget - k * s.par.cost.graphicsDirect) ∨
        (k < s.dl.width ∧ t.exhausted = true ∧ t.budget = 0 ∧ s.budget < (k + 1) * s.par.cost.graphicsDirect))

/-! ## Line buffers and the resolver -/

/-- R132, R133, R136, R139: what a cell resolves to: the background if unset or BG, in every read mode; in read mode 00 its
palette colour twice; in read mode 11 colour 2 of its palette where a bit is 1. The spec marks R132's pixel doubling and R133
"from general knowledge, not in source". -/
def Obligations.CellsResolveByTheReadMode : Prop :=
  ∀ (reg : Regs) (p : BitVec 3) (c : BitVec 2),
    resolveCell reg .unset = (reg.background, reg.background) ∧
    resolveCell reg (.set p .bg) = (reg.background, reg.background) ∧
    (reg.ctrl.readMode = 0#2 →
      resolveCell reg (.set p (.ix 0)) = (reg.background, reg.background) ∧
      resolveCell reg (.set p (.ix 1)) = ((getPalette reg.palette p).c1, (getPalette reg.palette p).c1) ∧
      resolveCell reg (.set p (.ix 2)) = ((getPalette reg.palette p).c2, (getPalette reg.palette p).c2) ∧
      resolveCell reg (.set p (.ix 3)) = ((getPalette reg.palette p).c3, (getPalette reg.palette p).c3)) ∧
    (reg.ctrl.readMode = 3#2 →
      resolveCell reg (.set p (.ix c)) =
        (if c.getLsbD 1 = true then (getPalette reg.palette p).c2 else reg.background,
          if c.getLsbD 0 = true then (getPalette reg.palette p).c2 else reg.background))

/-- The output of a scanline step: the buffer that was the read buffer, cell by cell, under the registers as they stand at the
step, with `colourKill`, `border` and the scanline passed out; afterwards the write buffer is clear, and the coordinates have
ticked, on every line (R76, R16, R73, R83, R84, R131, R138). -/
def Obligations.ScanlineOutputIsTheReadBuffer : Prop :=
  ∀ s t : State, s.blockTurn → s.fault = none → step s = .next t → t.fault = none →
    t.out.line =
        some
          { pairs := (readBuffer s).map (resolveCell s.reg), colourKill := s.reg.ctrl.colourKill,
            border := s.reg.ctrl.border, lineIndex := s.coord.scanline } ∧
    t.writeSel = !s.writeSel ∧ writeBuffer t = List.replicate 160 .unset ∧ t.coord = (tick s).coord

/-- R129, the double-buffer law: what the DMA of one scanline step writes is what the next step resolves and outputs, under
the registers that stand then. -/
def Obligations.LinesAreOutputOneStepLater : Prop :=
  ∀ (s t t' u : State), s.blockTurn → s.fault = none → step s = .next t → t.fault = none →
    t'.buf0 = t.buf0 → t'.buf1 = t.buf1 → t'.writeSel = t.writeSel →
    t'.blockTurn → t'.fault = none → step t' = .next u → u.fault = none →
    ∃ v, (frameStart (lineStart s.afterTurn) >>= lineDma) = .ok v ∧
      u.out.line.map LineOut.pairs = some ((writeBuffer v).map (resolveCell t'.reg))

/-! ## The scanline step -/

/-- R77: on a line that is not the frame's first, outside the window, with DMA off or with no zone in force, the step reads
nothing, charges nothing and leaves the zone and header as they were; the buffer it did not write is the next read buffer. DMA
is off at every `dmaLevel` but 0b10: for 0b00 and 0b01 that is the spec's own choice (93, U2; log 19, DEDUCED). -/
def Obligations.LinesWithoutDmaReadNothing : Prop :=
  ∀ s : State, s.blockTurn → s.canStep → s.coord.scanline ≠ s.par.firstDmaLine →
    (s.coord.scanline < s.par.firstDmaLine ∨ s.par.lastDmaLine < s.coord.scanline ∨ s.reg.ctrl.dmaLevel ≠ 2#2 ∨
      s.zoneValid = false) →
    ∃ t, step s = .next t ∧ t.reads = [] ∧ t.out.dmaConsumed = 0 ∧ t.budget = s.par.dmaMaxCycles ∧
      t.exhausted = false ∧ t.out.dli = false ∧ t.zone = s.zone ∧ t.zoneValid = s.zoneValid ∧ t.dl = s.dl ∧
      t.writeMode = s.writeMode ∧ readBuffer t = writeBuffer s ∧ t.fault = none

/-- R78: the step of `FIRST_DMA_LINE` with DMA off clears `zoneValid` and reads nothing (off at `dmaLevel` 0b00 and 0b01 is
the spec's own choice, 93 U2; log 19, DEDUCED). With DMA on, the part of the step before the line's DMA, `frameStart`:
`BeginFrame` runs, `zoneValid` is set and `EndOfBlank` charged, then the first record's DLI is raised if `DLI_ON_FIRST_ZONE`
allows it (R82). -/
def Obligations.FrameStartLaw : Prop :=
  (∀ s : State, s.blockTurn → s.canStep → s.coord.scanline = s.par.firstDmaLine → s.reg.ctrl.dmaLevel ≠ 2#2 →
    ∃ t, step s = .next t ∧ t.zoneValid = false ∧ t.reads = [] ∧ t.zone = s.zone ∧ t.out.dmaConsumed = 0 ∧
      t.out.dli = false ∧ t.fault = none) ∧
  (∀ s : State, s.coord.scanline = s.par.firstDmaLine → s.reg.ctrl.dmaLevel = 2#2 →
    (∀ h, beginFrame s = .error h → frameStart s = .error h) ∧
    (∀ t u, beginFrame s = .ok t → u = (charge .endOfBlank false { t with zoneValid := true }).2 →
      frameStart s = .ok (if s.par.dliOnFirstZone = true ∧ t.zone.dli = true then raiseDli u else u)))

/-- R81, R80: the step of a DMA line that raises no fault counts the line's zone down by one, whatever its display list holds
and whatever the budget; on the zone's last line the record 3 bytes on becomes the zone, byte for byte (R86, R88). The line's
zone, `u`'s, is the zone in force, and on `FIRST_DMA_LINE` with DMA on the record at `(dpph << 8) | dppl` (R78, R85). A line
without DMA keeps it. -/
def Obligations.EveryDmaLineCountsTheZoneDown : Prop :=
  ∀ s t : State, s.blockTurn → s.fault = none → step s = .next t → t.fault = none →
    ∃ u, frameStart (lineStart s.afterTurn) = .ok u ∧
      (s.coord.scanline ≠ s.par.firstDmaLine → u.zone = s.zone ∧ dmaRuns u = dmaRuns s) ∧
      (s.coord.scanline = s.par.firstDmaLine → s.reg.ctrl.dmaLevel = 2#2 →
        u.zone.origin = BitVec.ofNat 16 (256 * s.reg.dpph.toNat + s.reg.dppl.toNat) ∧ u.zone.seq = 0 ∧
          s.zoneIsRecord u.zone ∧ dmaRuns u = decide (s.par.firstDmaLine ≤ s.par.lastDmaLine)) ∧
      (dmaRuns u = true →
        (u.zone.remaining ≠ 0 → t.zone = { u.zone with remaining := u.zone.remaining - 1 }) ∧
        (u.zone.remaining = 0 →
          t.zone.origin = u.zone.origin + 3 ∧ t.zone.seq = u.zone.seq + 1 ∧ s.zoneIsRecord t.zone)) ∧
      (dmaRuns u = false → t.zone = u.zone)

/-- R162, R82, R163: `out.dli` is raised exactly if the line's countdown loaded a record with `dli` 1, on the last line of the
zone before it, or, on `FIRST_DMA_LINE`, if the first record has the bit and `DLI_ON_FIRST_ZONE` holds. The countdown's
request charges `InterruptOverhead` after the walk (`w`), unless the budget is exhausted; without one the walk's budget
stands. -/
def Obligations.DliIsRaisedOnTheLastLineBefore : Prop :=
  ∀ s t : State, s.blockTurn → s.fault = none → step s = .next t → t.fault = none →
    ∃ u w, frameStart (lineStart s.afterTurn) = .ok u ∧
      (dmaRuns u = true → walkDisplayList (charge (zoneStartupKind u) false u).2 = .ok w) ∧
      (dmaRuns u = false → w = u) ∧
      (s.coord.scanline ≠ s.par.firstDmaLine → u.out.dli = false ∧ u.zone = s.zone ∧ dmaRuns u = dmaRuns s) ∧
      (s.coord.scanline = s.par.firstDmaLine → u.out.dli = (dmaOn s && s.par.dliOnFirstZone && u.zone.dli)) ∧
      (t.out.dli = true ↔ u.out.dli = true ∨ (dmaRuns u = true ∧ u.zone.remaining = 0 ∧ t.zone.dli = true)) ∧
      (dmaRuns u = true ∧ u.zone.remaining = 0 ∧ t.zone.dli = true →
        (w.exhausted = true → t.budget = w.budget ∧ t.exhausted = true) ∧
        (w.exhausted = false → s.par.cost.interruptOverhead ≤ w.budget →
          t.budget = w.budget - s.par.cost.interruptOverhead ∧ t.exhausted = false) ∧
        (w.exhausted = false → w.budget < s.par.cost.interruptOverhead → t.budget = 0 ∧ t.exhausted = true)) ∧
      (¬ (dmaRuns u = true ∧ u.zone.remaining = 0 ∧ t.zone.dli = true) →
        t.budget = w.budget ∧ t.exhausted = w.exhausted)

/-- R82, R163: raising a DLI sets the request and charges `InterruptOverhead`; once the budget is exhausted the request still
stands and nothing is charged. R81: the countdown after the display list is one `AdvanceIfExpired`, then a DLI if it loaded a
record with `dli` 1. -/
def Obligations.RaiseDliLaw : Prop :=
  ∀ s : State,
    (s.exhausted = true → raiseDli s = { s with out := { s.out with dli := true } }) ∧
    (s.exhausted = false → s.par.cost.interruptOverhead ≤ s.budget →
      raiseDli s =
        { s with out := { s.out with dli := true }, budget := s.budget - s.par.cost.interruptOverhead }) ∧
    (s.exhausted = false → s.budget < s.par.cost.interruptOverhead →
      raiseDli s = { s with out := { s.out with dli := true }, budget := 0, exhausted := true }) ∧
    countdown s =
      (advanceIfExpired s).map fun r => if r.1 = true ∧ r.2.zone.dli = true then raiseDli r.2 else r.2

/-- R83, R111: `out.dmaConsumed` is what the line took from its budget, at most `DMA_MAX_CYCLES`, and all of it if a charge
failed. -/
def Obligations.DmaConsumedIsTheBudgetSpent : Prop :=
  ∀ s t : State, s.blockTurn → s.fault = none → step s = .next t → t.fault = none →
    t.out.dmaConsumed + t.budget = s.par.dmaMaxCycles ∧ (t.exhausted = true → t.out.dmaConsumed = s.par.dmaMaxCycles)

/-- R73 and R130: `Tick`, and `SwapLineBuffers`, which makes the buffer just filled the read buffer and clears the new write
buffer. Neither changes anything else. The spec marks the clear as its own choice (92, D25; 93, U4). -/
def Obligations.TickAndSwapLaw : Prop :=
  ∀ (s : State) (v : Nat), v = (match s.par.tvStandard with | .ntsc => 263 | .pal => 313) →
    (s.coord.scanline + 1 = v →
      tick s = { s with coord := { frame := s.coord.frame + 1, scanline := 0, clock := 0 } }) ∧
    (s.coord.scanline + 1 ≠ v →
      tick s = { s with coord := { frame := s.coord.frame, scanline := s.coord.scanline + 1, clock := 0 } }) ∧
    readBuffer (swapLineBuffers s) = writeBuffer s ∧
    writeBuffer (swapLineBuffers s) = List.replicate 160 .unset ∧
    swapLineBuffers s =
      { s with
        writeSel := !s.writeSel, buf0 := (swapLineBuffers s).buf0, buf1 := (swapLineBuffers s).buf1 }

/-! ## Faults -/

/-- R158: a scanline step that records a fault changes nothing else; the host's turn that let it run is taken off the inbox,
which is the model's choice (log 1, DESIGN CHOICE). -/
def Obligations.BusErrorsRollTheStepBack : Prop :=
  ∀ s t : State, s.blockTurn → s.fault = none → step s = .next t → t.fault ≠ none →
    t = { s.afterTurn with fault := t.fault }

/-- R156: a recorded fault is a bus error at an address the bus did not answer; so a step with a bus that answers everything
records none (R156: "a model that wants no faults gives a total bus"). -/
def Obligations.RecordedFaultsNameAFailingRead : Prop :=
  ∀ (s t : State) (f : FaultRecord), s.blockTurn → s.fault = none → step s = .next t → t.fault = some f →
    busByte s f.addr = none ∧ f.addr.toNat ∈ s.busFaults

/-- R159: while a fault is recorded no scanline step is enabled; the register port is still served, the snapshot shows the
fault, and of the host's moves only a reset clears it. That the scanline step then answers the fault `stuck` is log 12
(DEDUCED), and that a waiting move is the next step the model's choice (log 1, DESIGN CHOICE). -/
def Obligations.FaultsAreStickyUntilReset : Prop :=
  ∀ (s : State) (f : FaultRecord), s.fault = some f →
    (s.blockTurn → step s = .fault (.stuck f.addr f.op)) ∧
    (∀ o a rest, s.inbox = .port o a :: rest → step s = exec (decodePort o a) { s with inbox := rest }) ∧
    (∀ m rest, s.inbox = m :: rest → m ≠ .reset → m ≠ .scanline → ∃ t, step s = .next t ∧ t.fault = some f) ∧
    (∀ rest, s.inbox = .reset :: rest → ∃ t, step s = .next t ∧ t.fault = none) ∧
    (snapshot s).fault = some f

/-! ## Host moves and reset -/

/-- R50, R6: scanline steps and host moves follow one another as the host's turns say (log 1): the moves before a scanline
step are taken one a step, in order, then the scanline step, then the moves after it; with no turn left, scanline steps alone.
-/
def Obligations.HostMovesFallBetweenScanlineSteps : Prop :=
  (∀ s : State, s.blockTurn → step s = stepScanline s.afterTurn) ∧
  (∀ (ms rest : List HostMove) (s : State), (∀ m ∈ ms, m ≠ .scanline) → s.inbox = ms ++ .scanline :: rest →
    ∃ t, reaches ms.length s t ∧ t.inbox = .scanline :: rest ∧ step t = stepScanline { t with inbox := rest } ∧
      ∀ u, step t = .next u → u.inbox = rest)

/-- R50: a host memory write is seen by every later read of its address and by no other; in canonical form it changes nothing
else. -/
def Obligations.HostWritesAreSeen : Prop :=
  ∀ (s : State) (a : Addr) (v : Byte) (rest : List HostMove), s.inbox = .memWrite a v :: rest → s.mem.wf = true →
    ∃ t, step s = .next t ∧ t = { s with inbox := rest, mem := t.mem } ∧ t.mem.wf = true ∧
      (a.toNat ∉ s.busFaults → busByte t a = some v) ∧ ∀ b, b ≠ a → busByte t b = busByte s b

/-- R146: a WSYNC write changes `out.wsync` alone; the pulse is over after the next completed scanline step (log 21). -/
def Obligations.WsyncIsAPulse : Prop :=
  (∀ (s : State) (v : Byte) (rest : List HostMove), s.inbox = .port 0x04#5 (.write v) :: rest →
    step s = .next { s with inbox := rest, out := { s.out with wsync := true } }) ∧
  (∀ s t : State, s.blockTurn → s.fault = none → step s = .next t → t.fault = none → t.out.wsync = false)

/-- R38: the value of every piece of state after a reset; the host's memory, bus, parameters, waiting moves and last port byte
stay. That `out.line` none leaves no `out.colourKill`, `out.border` and `out.line_index` is the model's choice (log 26, DESIGN
CHOICE), not R38's. The registers are `RESET_REGS` if given, else the next draw (log 3); `draws`, `gfxIndex`, `reads` are the
model's own (log 14), and most of R38's values the spec's own decisions (92, D33, D40, D43). -/
def Obligations.ResetLeavesEveryFieldAtItsValue : Prop :=
  ∀ (s : State) (rest : List HostMove), s.inbox = .reset :: rest →
    step s =
      .next
        { coord := { frame := 0, scanline := 0, clock := 0 }
          reg := (match s.par.resetRegs with | some r => r | none => Config.drawRegs s.draws)
          zone :=
            { origin := 0, seq := 0, dli := false, hole16 := false, hole8 := false, height := 0, remaining := 0,
              dlHi := 0, dlLo := 0 }
          zoneValid := false
          dl :=
            { origin := 0, seq := 0, isLong := false, indirect := false, isEnd := false, lo := 0, hi := 0, pal := 0,
              width := 0, hpos := 0 }
          writeMode := false
          budget := s.par.dmaMaxCycles
          exhausted := false
          buf0 := List.replicate 160 .unset
          buf1 := List.replicate 160 .unset
          writeSel := false
          fault := none
          out := { line := none, dmaConsumed := 0, dli := false, wsync := false }
          mem := s.mem
          busFaults := s.busFaults
          inbox := rest
          par := s.par
          portData := s.portData
          gfxIndex := 0
          reads := []
          draws := s.draws + 1 }

/-- R171: the first scanline step after a reset, whatever memory, bus and parameters the host has, is for scanline 0 of frame
0; it outputs 160 pairs of the background, runs no DMA (where line 0 is not `FIRST_DMA_LINE`) and raises no DLI. The spec
marks R171 as derived from R169 and R76; the registers are those of log 3. -/
def Obligations.FirstStepAfterReset : Prop :=
  ∀ s : State, s.blockTurn → headerCostsPositive s.par = true → s.par.firstDmaLine ≠ 0 →
    ∃ t, step (resetBlock s) = .next t ∧
      t.out.line =
        some
          { pairs :=
              List.replicate 160 ((resetRegs s.par s.draws).background, (resetRegs s.par s.draws).background),
            colourKill := (resetRegs s.par s.draws).ctrl.colourKill, border := (resetRegs s.par s.draws).ctrl.border,
            lineIndex := 0 } ∧
      t.coord = { frame := 0, scanline := 1, clock := 0 } ∧ t.reg = resetRegs s.par s.draws ∧ t.reads = [] ∧
      t.out.dmaConsumed = 0 ∧ t.out.dli = false ∧ t.zoneValid = false ∧ t.fault = none ∧ t.mem = s.mem

/-- The state right after reset meets the invariant. -/
def Obligations.ResetStateMeetsTheInvariant : Prop := State.reset.Inv

/-- Every step keeps the invariant (R16, R25, R27, R31, R34, R112, and the canonical form of memory), from every state that
meets it. -/
def Obligations.EveryStepKeepsTheInvariant : Prop :=
  ∀ s t : State, s.Inv → step s = .next t → t.Inv

/-! ## Noninterference -/

/-- R150, R21: the OFFSET register has no effect in the block: whatever byte it holds, a scanline step answers the same but
for that byte. -/
def Obligations.OffsetHasNoEffect : Prop :=
  ∀ (s : State) (v : Byte), s.blockTurn →
    step { s with reg := { s.reg with offset := v } } =
      (match step s with
      | .next t => .next { t with reg := { t.reg with offset := v } }
      | .fault r => .fault r
      | .refused r => .refused r)

/-- R173, R148, R176: DPPH and DPPL are read at the frame start and nowhere else: on every other line a scanline step answers
the same whatever they hold, but for the two bytes themselves. -/
def Obligations.DisplayPointersAreReadAtTheFrameStartOnly : Prop :=
  ∀ (s : State) (h l : Byte), s.blockTurn → s.coord.scanline ≠ s.par.firstDmaLine →
    step { s with reg := { s.reg with dpph := h, dppl := l } } =
      (match step s with
      | .next t => .next { t with reg := { t.reg with dpph := h, dppl := l } }
      | .fault r => .fault r
      | .refused r => .refused r)
end

