-- ==== Sys2Proof/Laws/State.lean ====
section
/-! SUPPORT. What each named update does to each field of State. -/
namespace Sys2Proof.Machine

/-! ## `takeBusError` -/

@[simp] theorem takeBusError_coord (s : State) (f : FaultRecord) : (takeBusError s f).coord = s.coord := rfl
@[simp] theorem takeBusError_reg (s : State) (f : FaultRecord) : (takeBusError s f).reg = s.reg := rfl
@[simp] theorem takeBusError_zone (s : State) (f : FaultRecord) : (takeBusError s f).zone = s.zone := rfl
@[simp] theorem takeBusError_zoneValid (s : State) (f : FaultRecord) : (takeBusError s f).zoneValid = s.zoneValid := rfl
@[simp] theorem takeBusError_dl (s : State) (f : FaultRecord) : (takeBusError s f).dl = s.dl := rfl
@[simp] theorem takeBusError_writeMode (s : State) (f : FaultRecord) : (takeBusError s f).writeMode = s.writeMode := rfl
@[simp] theorem takeBusError_budget (s : State) (f : FaultRecord) : (takeBusError s f).budget = s.budget := rfl
@[simp] theorem takeBusError_exhausted (s : State) (f : FaultRecord) : (takeBusError s f).exhausted = s.exhausted := rfl
@[simp] theorem takeBusError_buf0 (s : State) (f : FaultRecord) : (takeBusError s f).buf0 = s.buf0 := rfl
@[simp] theorem takeBusError_buf1 (s : State) (f : FaultRecord) : (takeBusError s f).buf1 = s.buf1 := rfl
@[simp] theorem takeBusError_writeSel (s : State) (f : FaultRecord) : (takeBusError s f).writeSel = s.writeSel := rfl
@[simp] theorem takeBusError_fault (s : State) (f : FaultRecord) : (takeBusError s f).fault = some f := rfl
@[simp] theorem takeBusError_out (s : State) (f : FaultRecord) : (takeBusError s f).out = s.out := rfl
@[simp] theorem takeBusError_mem (s : State) (f : FaultRecord) : (takeBusError s f).mem = s.mem := rfl
@[simp] theorem takeBusError_busFaults (s : State) (f : FaultRecord) : (takeBusError s f).busFaults = s.busFaults := rfl
@[simp] theorem takeBusError_inbox (s : State) (f : FaultRecord) : (takeBusError s f).inbox = s.inbox := rfl
@[simp] theorem takeBusError_par (s : State) (f : FaultRecord) : (takeBusError s f).par = s.par := rfl
@[simp] theorem takeBusError_portData (s : State) (f : FaultRecord) : (takeBusError s f).portData = s.portData := rfl
@[simp] theorem takeBusError_gfxIndex (s : State) (f : FaultRecord) : (takeBusError s f).gfxIndex = s.gfxIndex := rfl
@[simp] theorem takeBusError_reads (s : State) (f : FaultRecord) : (takeBusError s f).reads = s.reads := rfl
@[simp] theorem takeBusError_draws (s : State) (f : FaultRecord) : (takeBusError s f).draws = s.draws := rfl

/-! ## `drivePort` -/

@[simp] theorem drivePort_coord (s : State) (v : Byte) : (drivePort v s).coord = s.coord := rfl
@[simp] theorem drivePort_reg (s : State) (v : Byte) : (drivePort v s).reg = s.reg := rfl
@[simp] theorem drivePort_zone (s : State) (v : Byte) : (drivePort v s).zone = s.zone := rfl
@[simp] theorem drivePort_zoneValid (s : State) (v : Byte) : (drivePort v s).zoneValid = s.zoneValid := rfl
@[simp] theorem drivePort_dl (s : State) (v : Byte) : (drivePort v s).dl = s.dl := rfl
@[simp] theorem drivePort_writeMode (s : State) (v : Byte) : (drivePort v s).writeMode = s.writeMode := rfl
@[simp] theorem drivePort_budget (s : State) (v : Byte) : (drivePort v s).budget = s.budget := rfl
@[simp] theorem drivePort_exhausted (s : State) (v : Byte) : (drivePort v s).exhausted = s.exhausted := rfl
@[simp] theorem drivePort_buf0 (s : State) (v : Byte) : (drivePort v s).buf0 = s.buf0 := rfl
@[simp] theorem drivePort_buf1 (s : State) (v : Byte) : (drivePort v s).buf1 = s.buf1 := rfl
@[simp] theorem drivePort_writeSel (s : State) (v : Byte) : (drivePort v s).writeSel = s.writeSel := rfl
@[simp] theorem drivePort_fault (s : State) (v : Byte) : (drivePort v s).fault = s.fault := rfl
@[simp] theorem drivePort_out (s : State) (v : Byte) : (drivePort v s).out = s.out := rfl
@[simp] theorem drivePort_mem (s : State) (v : Byte) : (drivePort v s).mem = s.mem := rfl
@[simp] theorem drivePort_busFaults (s : State) (v : Byte) : (drivePort v s).busFaults = s.busFaults := rfl
@[simp] theorem drivePort_inbox (s : State) (v : Byte) : (drivePort v s).inbox = s.inbox := rfl
@[simp] theorem drivePort_par (s : State) (v : Byte) : (drivePort v s).par = s.par := rfl
@[simp] theorem drivePort_portData (s : State) (v : Byte) : (drivePort v s).portData = v := rfl
@[simp] theorem drivePort_gfxIndex (s : State) (v : Byte) : (drivePort v s).gfxIndex = s.gfxIndex := rfl
@[simp] theorem drivePort_reads (s : State) (v : Byte) : (drivePort v s).reads = s.reads := rfl
@[simp] theorem drivePort_draws (s : State) (v : Byte) : (drivePort v s).draws = s.draws := rfl

/-! ## `passBytes` -/

@[simp] theorem passBytes_coord (s : State) (n : Nat) : (passBytes n s).coord = s.coord := rfl
@[simp] theorem passBytes_reg (s : State) (n : Nat) : (passBytes n s).reg = s.reg := rfl
@[simp] theorem passBytes_zone (s : State) (n : Nat) : (passBytes n s).zone = s.zone := rfl
@[simp] theorem passBytes_zoneValid (s : State) (n : Nat) : (passBytes n s).zoneValid = s.zoneValid := rfl
@[simp] theorem passBytes_dl (s : State) (n : Nat) : (passBytes n s).dl = s.dl := rfl
@[simp] theorem passBytes_writeMode (s : State) (n : Nat) : (passBytes n s).writeMode = s.writeMode := rfl
@[simp] theorem passBytes_budget (s : State) (n : Nat) : (passBytes n s).budget = s.budget := rfl
@[simp] theorem passBytes_exhausted (s : State) (n : Nat) : (passBytes n s).exhausted = s.exhausted := rfl
@[simp] theorem passBytes_buf0 (s : State) (n : Nat) : (passBytes n s).buf0 = s.buf0 := rfl
@[simp] theorem passBytes_buf1 (s : State) (n : Nat) : (passBytes n s).buf1 = s.buf1 := rfl
@[simp] theorem passBytes_writeSel (s : State) (n : Nat) : (passBytes n s).writeSel = s.writeSel := rfl
@[simp] theorem passBytes_fault (s : State) (n : Nat) : (passBytes n s).fault = s.fault := rfl
@[simp] theorem passBytes_out (s : State) (n : Nat) : (passBytes n s).out = s.out := rfl
@[simp] theorem passBytes_mem (s : State) (n : Nat) : (passBytes n s).mem = s.mem := rfl
@[simp] theorem passBytes_busFaults (s : State) (n : Nat) : (passBytes n s).busFaults = s.busFaults := rfl
@[simp] theorem passBytes_inbox (s : State) (n : Nat) : (passBytes n s).inbox = s.inbox := rfl
@[simp] theorem passBytes_par (s : State) (n : Nat) : (passBytes n s).par = s.par := rfl
@[simp] theorem passBytes_portData (s : State) (n : Nat) : (passBytes n s).portData = s.portData := rfl
@[simp] theorem passBytes_gfxIndex (s : State) (n : Nat) : (passBytes n s).gfxIndex = s.gfxIndex + n := rfl
@[simp] theorem passBytes_reads (s : State) (n : Nat) : (passBytes n s).reads = s.reads := rfl
@[simp] theorem passBytes_draws (s : State) (n : Nat) : (passBytes n s).draws = s.draws := rfl

/-! ## `setPalette` -/

@[simp] theorem setPalette_coord (s : State) (p : BitVec 3) (v : Palette) : (setPalette p v s).coord = s.coord := rfl
@[simp] theorem setPalette_reg (s : State) (p : BitVec 3) (v : Palette) : (setPalette p v s).reg = { s.reg with palette := putPalette s.reg.palette p v } := rfl
@[simp] theorem setPalette_zone (s : State) (p : BitVec 3) (v : Palette) : (setPalette p v s).zone = s.zone := rfl
@[simp] theorem setPalette_zoneValid (s : State) (p : BitVec 3) (v : Palette) : (setPalette p v s).zoneValid = s.zoneValid := rfl
@[simp] theorem setPalette_dl (s : State) (p : BitVec 3) (v : Palette) : (setPalette p v s).dl = s.dl := rfl
@[simp] theorem setPalette_writeMode (s : State) (p : BitVec 3) (v : Palette) : (setPalette p v s).writeMode = s.writeMode := rfl
@[simp] theorem setPalette_budget (s : State) (p : BitVec 3) (v : Palette) : (setPalette p v s).budget = s.budget := rfl
@[simp] theorem setPalette_exhausted (s : State) (p : BitVec 3) (v : Palette) : (setPalette p v s).exhausted = s.exhausted := rfl
@[simp] theorem setPalette_buf0 (s : State) (p : BitVec 3) (v : Palette) : (setPalette p v s).buf0 = s.buf0 := rfl
@[simp] theorem setPalette_buf1 (s : State) (p : BitVec 3) (v : Palette) : (setPalette p v s).buf1 = s.buf1 := rfl
@[simp] theorem setPalette_writeSel (s : State) (p : BitVec 3) (v : Palette) : (setPalette p v s).writeSel = s.writeSel := rfl
@[simp] theorem setPalette_fault (s : State) (p : BitVec 3) (v : Palette) : (setPalette p v s).fault = s.fault := rfl
@[simp] theorem setPalette_out (s : State) (p : BitVec 3) (v : Palette) : (setPalette p v s).out = s.out := rfl
@[simp] theorem setPalette_mem (s : State) (p : BitVec 3) (v : Palette) : (setPalette p v s).mem = s.mem := rfl
@[simp] theorem setPalette_busFaults (s : State) (p : BitVec 3) (v : Palette) : (setPalette p v s).busFaults = s.busFaults := rfl
@[simp] theorem setPalette_inbox (s : State) (p : BitVec 3) (v : Palette) : (setPalette p v s).inbox = s.inbox := rfl
@[simp] theorem setPalette_par (s : State) (p : BitVec 3) (v : Palette) : (setPalette p v s).par = s.par := rfl
@[simp] theorem setPalette_portData (s : State) (p : BitVec 3) (v : Palette) : (setPalette p v s).portData = s.portData := rfl
@[simp] theorem setPalette_gfxIndex (s : State) (p : BitVec 3) (v : Palette) : (setPalette p v s).gfxIndex = s.gfxIndex := rfl
@[simp] theorem setPalette_reads (s : State) (p : BitVec 3) (v : Palette) : (setPalette p v s).reads = s.reads := rfl
@[simp] theorem setPalette_draws (s : State) (p : BitVec 3) (v : Palette) : (setPalette p v s).draws = s.draws := rfl

/-! ## `beginLine` -/

@[simp] theorem beginLine_coord (s : State) : (beginLine s).coord = s.coord := rfl
@[simp] theorem beginLine_reg (s : State) : (beginLine s).reg = s.reg := rfl
@[simp] theorem beginLine_zone (s : State) : (beginLine s).zone = s.zone := rfl
@[simp] theorem beginLine_zoneValid (s : State) : (beginLine s).zoneValid = s.zoneValid := rfl
@[simp] theorem beginLine_dl (s : State) : (beginLine s).dl = s.dl := rfl
@[simp] theorem beginLine_writeMode (s : State) : (beginLine s).writeMode = s.writeMode := rfl
@[simp] theorem beginLine_budget (s : State) : (beginLine s).budget = s.par.dmaMaxCycles := rfl
@[simp] theorem beginLine_exhausted (s : State) : (beginLine s).exhausted = false := rfl
@[simp] theorem beginLine_buf0 (s : State) : (beginLine s).buf0 = s.buf0 := rfl
@[simp] theorem beginLine_buf1 (s : State) : (beginLine s).buf1 = s.buf1 := rfl
@[simp] theorem beginLine_writeSel (s : State) : (beginLine s).writeSel = s.writeSel := rfl
@[simp] theorem beginLine_fault (s : State) : (beginLine s).fault = s.fault := rfl
@[simp] theorem beginLine_out (s : State) : (beginLine s).out = { s.out with dli := false } := rfl
@[simp] theorem beginLine_mem (s : State) : (beginLine s).mem = s.mem := rfl
@[simp] theorem beginLine_busFaults (s : State) : (beginLine s).busFaults = s.busFaults := rfl
@[simp] theorem beginLine_inbox (s : State) : (beginLine s).inbox = s.inbox := rfl
@[simp] theorem beginLine_par (s : State) : (beginLine s).par = s.par := rfl
@[simp] theorem beginLine_portData (s : State) : (beginLine s).portData = s.portData := rfl
@[simp] theorem beginLine_gfxIndex (s : State) : (beginLine s).gfxIndex = s.gfxIndex := rfl
@[simp] theorem beginLine_reads (s : State) : (beginLine s).reads = [] := rfl
@[simp] theorem beginLine_draws (s : State) : (beginLine s).draws = s.draws := rfl

/-! ## `setWriteBuffer` -/

@[simp] theorem setWriteBuffer_coord (s : State) (b : LineBuffer) : (setWriteBuffer s b).coord = s.coord := by unfold setWriteBuffer; split <;> rfl
@[simp] theorem setWriteBuffer_reg (s : State) (b : LineBuffer) : (setWriteBuffer s b).reg = s.reg := by unfold setWriteBuffer; split <;> rfl
@[simp] theorem setWriteBuffer_zone (s : State) (b : LineBuffer) : (setWriteBuffer s b).zone = s.zone := by unfold setWriteBuffer; split <;> rfl
@[simp] theorem setWriteBuffer_zoneValid (s : State) (b : LineBuffer) : (setWriteBuffer s b).zoneValid = s.zoneValid := by unfold setWriteBuffer; split <;> rfl
@[simp] theorem setWriteBuffer_dl (s : State) (b : LineBuffer) : (setWriteBuffer s b).dl = s.dl := by unfold setWriteBuffer; split <;> rfl
@[simp] theorem setWriteBuffer_writeMode (s : State) (b : LineBuffer) : (setWriteBuffer s b).writeMode = s.writeMode := by unfold setWriteBuffer; split <;> rfl
@[simp] theorem setWriteBuffer_budget (s : State) (b : LineBuffer) : (setWriteBuffer s b).budget = s.budget := by unfold setWriteBuffer; split <;> rfl
@[simp] theorem setWriteBuffer_exhausted (s : State) (b : LineBuffer) : (setWriteBuffer s b).exhausted = s.exhausted := by unfold setWriteBuffer; split <;> rfl
@[simp] theorem setWriteBuffer_writeSel (s : State) (b : LineBuffer) : (setWriteBuffer s b).writeSel = s.writeSel := by unfold setWriteBuffer; split <;> rfl
@[simp] theorem setWriteBuffer_fault (s : State) (b : LineBuffer) : (setWriteBuffer s b).fault = s.fault := by unfold setWriteBuffer; split <;> rfl
@[simp] theorem setWriteBuffer_out (s : State) (b : LineBuffer) : (setWriteBuffer s b).out = s.out := by unfold setWriteBuffer; split <;> rfl
@[simp] theorem setWriteBuffer_mem (s : State) (b : LineBuffer) : (setWriteBuffer s b).mem = s.mem := by unfold setWriteBuffer; split <;> rfl
@[simp] theorem setWriteBuffer_busFaults (s : State) (b : LineBuffer) : (setWriteBuffer s b).busFaults = s.busFaults := by unfold setWriteBuffer; split <;> rfl
@[simp] theorem setWriteBuffer_inbox (s : State) (b : LineBuffer) : (setWriteBuffer s b).inbox = s.inbox := by unfold setWriteBuffer; split <;> rfl
@[simp] theorem setWriteBuffer_par (s : State) (b : LineBuffer) : (setWriteBuffer s b).par = s.par := by unfold setWriteBuffer; split <;> rfl
@[simp] theorem setWriteBuffer_portData (s : State) (b : LineBuffer) : (setWriteBuffer s b).portData = s.portData := by unfold setWriteBuffer; split <;> rfl
@[simp] theorem setWriteBuffer_gfxIndex (s : State) (b : LineBuffer) : (setWriteBuffer s b).gfxIndex = s.gfxIndex := by unfold setWriteBuffer; split <;> rfl
@[simp] theorem setWriteBuffer_reads (s : State) (b : LineBuffer) : (setWriteBuffer s b).reads = s.reads := by unfold setWriteBuffer; split <;> rfl
@[simp] theorem setWriteBuffer_draws (s : State) (b : LineBuffer) : (setWriteBuffer s b).draws = s.draws := by unfold setWriteBuffer; split <;> rfl

/-! ## The line buffers through their accessors -/

@[simp] theorem writeBuffer_setWriteBuffer (s : State) (b : LineBuffer) : writeBuffer (setWriteBuffer s b) = b := by
  unfold writeBuffer setWriteBuffer; cases s.writeSel <;> simp

@[simp] theorem readBuffer_setWriteBuffer (s : State) (b : LineBuffer) :
    readBuffer (setWriteBuffer s b) = readBuffer s := by
  unfold readBuffer setWriteBuffer; cases s.writeSel <;> simp

end Sys2Proof.Machine
end

