-- ==== Sys2Proof/Laws/Memory.lean ====
section
/-! SUPPORT. The laws of the host's memory: the canonical form is kept, and a read after a write. -/
namespace Sys2Proof.Machine

theorem Memory.wfFrom_mono {m : Memory} {lo lo' : Nat} (h : lo' ≤ lo) (w : Memory.wfFrom lo m = true) :
    Memory.wfFrom lo' m = true := by
  cases m with
  | nil => rfl
  | cons c m =>
    simp only [Memory.wfFrom, Bool.and_eq_true, decide_eq_true_eq] at w ⊢
    exact ⟨⟨⟨by omega, w.1.1.2⟩, w.1.2⟩, w.2⟩

theorem Memory.wfFrom_entry {a lo : Nat} {v : Byte} {m : Memory} (hlo : lo ≤ a) (ha : a < 65536)
    (w : Memory.wfFrom (a + 1) m = true) : Memory.wfFrom lo (Memory.entry a v m) = true := by
  unfold Memory.entry
  split
  · exact Memory.wfFrom_mono (by omega) w
  · simp_all [Memory.wfFrom]

theorem Memory.wfFrom_write {m : Memory} {lo a : Nat} {v : Byte} (hlo : lo ≤ a) (ha : a < 65536)
    (w : Memory.wfFrom lo m = true) : Memory.wfFrom lo (m.write a v) = true := by
  induction m generalizing lo with
  | nil => exact Memory.wfFrom_entry hlo ha rfl
  | cons c m ih =>
    simp only [Memory.wfFrom, Bool.and_eq_true, decide_eq_true_eq] at w
    obtain ⟨⟨⟨h1, h2⟩, h3⟩, h4⟩ := w
    unfold Memory.write
    split
    · refine Memory.wfFrom_entry hlo ha ?_
      simp only [Memory.wfFrom, Bool.and_eq_true, decide_eq_true_eq]
      exact ⟨⟨⟨by omega, h2⟩, h3⟩, h4⟩
    · split
      · next h => subst h; exact Memory.wfFrom_entry hlo ha h4
      · simp only [Memory.wfFrom, Bool.and_eq_true, decide_eq_true_eq]
        exact ⟨⟨⟨h1, h2⟩, h3⟩, ih (by omega) h4⟩

/-- A host write keeps the canonical form. -/
theorem Memory.write_wf {m : Memory} (w : m.wf = true) (a : Addr) (v : Byte) : (m.write a.toNat v).wf = true :=
  Memory.wfFrom_write (Nat.zero_le _) a.isLt w

/-- A run of host writes keeps the canonical form. -/
theorem Memory.writeAll_wf {m : Memory} (w : m.wf = true) (a : Addr) (vs : List Byte) : (m.writeAll a vs).wf = true := by
  induction vs generalizing m a with
  | nil => exact w
  | cons v vs ih => exact ih (Memory.write_wf w a v) _

/-- In canonical form no address below the first one is listed. -/
theorem Memory.read_below {m : Memory} {lo a : Nat} (w : Memory.wfFrom lo m = true) (h : a < lo) :
    m.read a = unwrittenByte := by
  induction m generalizing lo with
  | nil => rfl
  | cons c m ih =>
    simp only [Memory.wfFrom, Bool.and_eq_true, decide_eq_true_eq] at w
    unfold Memory.read
    rw [if_neg (by omega)]
    exact ih w.2 (by omega)

theorem Memory.read_entry_same {a : Nat} {v : Byte} {m : Memory} (w : Memory.wfFrom (a + 1) m = true) :
    (Memory.entry a v m).read a = v := by
  unfold Memory.entry
  split
  · next h => rw [h]; exact Memory.read_below w (by omega)
  · simp [Memory.read]

theorem Memory.read_entry_other {a b : Nat} {v : Byte} {m : Memory} (h : a ≠ b) :
    (Memory.entry a v m).read b = m.read b := by
  unfold Memory.entry
  split
  · rfl
  · simp [Memory.read, h]

theorem Memory.read_write_same_from {m : Memory} {lo a : Nat} {v : Byte} (w : Memory.wfFrom lo m = true) :
    (m.write a v).read a = v := by
  induction m generalizing lo with
  | nil => exact Memory.read_entry_same rfl
  | cons c m ih =>
    obtain ⟨b, x⟩ := c
    simp only [Memory.wfFrom, Bool.and_eq_true, decide_eq_true_eq] at w
    unfold Memory.write
    split
    · refine Memory.read_entry_same ?_
      simp only [Memory.wfFrom, Bool.and_eq_true, decide_eq_true_eq]
      exact ⟨⟨⟨by omega, w.1.1.2⟩, w.1.2⟩, w.2⟩
    · split
      · next h => subst h; exact Memory.read_entry_same w.2
      · next h1 h2 =>
        unfold Memory.read
        rw [if_neg (fun h => h2 h.symm)]
        exact ih w.2

/-- A read after a write to the same address gives the byte written. -/
theorem Memory.read_write_same {m : Memory} (w : m.wf = true) (a : Nat) (v : Byte) : (m.write a v).read a = v :=
  Memory.read_write_same_from w

/-- A write leaves every other address alone. -/
theorem Memory.read_write_other (m : Memory) {a b : Nat} (v : Byte) (h : a ≠ b) : (m.write a v).read b = m.read b := by
  induction m with
  | nil => exact Memory.read_entry_other h
  | cons c m ih =>
    obtain ⟨d, x⟩ := c
    unfold Memory.write
    split
    · exact Memory.read_entry_other h
    · split
      · next hd =>
        rw [Memory.read_entry_other h, Memory.read, if_neg (by omega)]
      · simp [Memory.read, ih]

theorem risingFrom_mono {l : List Nat} {lo lo' : Nat} (h : lo' ≤ lo) (w : risingFrom lo l = true) :
    risingFrom lo' l = true := by
  cases l with
  | nil => rfl
  | cons c l =>
    simp only [risingFrom, Bool.and_eq_true, decide_eq_true_eq] at w ⊢
    exact ⟨⟨by omega, w.1.2⟩, w.2⟩

/-- Adding an address keeps the canonical form. -/
theorem insertAddr_rising {l : List Nat} {lo a : Nat} (hlo : lo ≤ a) (ha : a < 65536) (w : risingFrom lo l = true) :
    risingFrom lo (insertAddr a l) = true := by
  induction l generalizing lo with
  | nil => simp [insertAddr, risingFrom, hlo, ha]
  | cons b l ih =>
    simp only [risingFrom, Bool.and_eq_true, decide_eq_true_eq] at w
    obtain ⟨⟨h1, h2⟩, h3⟩ := w
    unfold insertAddr
    split
    · simp only [risingFrom, Bool.and_eq_true, decide_eq_true_eq]
      exact ⟨⟨hlo, ha⟩, ⟨by omega, h2⟩, h3⟩
    · split
      · simp only [risingFrom, Bool.and_eq_true, decide_eq_true_eq]
        exact ⟨⟨h1, h2⟩, h3⟩
      · simp only [risingFrom, Bool.and_eq_true, decide_eq_true_eq]
        exact ⟨⟨h1, h2⟩, ih (by omega) h3⟩

/-- Taking an address out keeps the canonical form. -/
theorem removeAddr_rising {l : List Nat} {lo : Nat} (a : Nat) (w : risingFrom lo l = true) :
    risingFrom lo (removeAddr a l) = true := by
  induction l generalizing lo with
  | nil => rfl
  | cons b l ih =>
    simp only [risingFrom, Bool.and_eq_true, decide_eq_true_eq] at w
    have h := ih w.2
    unfold removeAddr at h ⊢
    rw [List.filter_cons]
    split
    · simp only [risingFrom, Bool.and_eq_true, decide_eq_true_eq]
      exact ⟨w.1, h⟩
    · exact risingFrom_mono (by omega) h

theorem mem_insertAddr {l : List Nat} {a b : Nat} : b ∈ insertAddr a l ↔ b = a ∨ b ∈ l := by
  induction l with
  | nil => simp [insertAddr]
  | cons c l ih =>
    unfold insertAddr
    split
    · simp
    · split
      · next h => subst h; simp
      · simp [ih, or_left_comm]

theorem mem_removeAddr {l : List Nat} {a b : Nat} : b ∈ removeAddr a l ↔ b ∈ l ∧ b ≠ a := by
  simp [removeAddr]

end Sys2Proof.Machine
end

