-- ==== Sys2Proof/Laws/Ops.lean ====
section
/-! SUPPORT. One lemma for each shared operation that says everything it can do. -/
namespace Sys2Proof.Machine

/-! ## Runs -/

/-- A run of two parts ends only where both do. -/
theorem bind_ok {α β : Type} {x : Except Halt α} {f : α → Except Halt β} {r : β} :
    (x >>= f) = .ok r ↔ ∃ a, x = .ok a ∧ f a = .ok r := by
  cases x <;> simp [bind, Except.bind]

/-- A read ends only where the bus answers, and notes itself. -/
theorem busRead_ok {op : ReadOp} {a : Addr} {s : State} {r : Byte × State} :
    busRead op a s = .ok r ↔ ∃ b, busByte s a = some b ∧ r = (b, { s with reads := s.reads ++ [(a, op)] }) := by
  unfold busRead
  cases busByte s a <;> simp [eq_comm]

/-- A read the bus does not answer raises the bus error of that address and operation (R156). -/
theorem busRead_fails {op : ReadOp} {a : Addr} {s : State} (h : busByte s a = none) :
    busRead op a s = .error (.busError { kind := .busError, addr := a, op := op }) := by
  unfold busRead; rw [h]

/-- A read the bus answers. -/
theorem busRead_answers {op : ReadOp} {a : Addr} {s : State} {b : Byte} (h : busByte s a = some b) :
    busRead op a s = .ok (b, { s with reads := s.reads ++ [(a, op)] }) := by
  unfold busRead; rw [h]

/-- What the bus answers depends on the memory and the failing addresses alone. -/
theorem busByte_congr {s t : State} (hm : t.mem = s.mem) (hf : t.busFaults = s.busFaults) (a : Addr) :
    busByte t a = busByte s a := by
  unfold busByte; rw [hm, hf]

/-- An instruction that ends inside a step: its answer is a next state with no fault. -/
theorem resume_ok {r : Result} {t : State} : resume r = .ok t ↔ r = .next t ∧ t.fault = none := by
  cases r with
  | next s =>
    simp only [resume]
    split
    · next h => simp only [Except.ok.injEq, Host.Outcome.next.injEq]; exact ⟨fun e => ⟨e, e ▸ h⟩, fun e => e.1⟩
    · next f h => simp only [reduceCtorEq, Host.Outcome.next.injEq, false_iff]; rintro ⟨rfl, e⟩; simp [h] at e
  | fault r => simp [resume]
  | refused r => simp [resume]

/-- What a concluded run answers as a next state: the run's end, or the start with the fault recorded (R158). -/
theorem conclude_next {s t : State} {x : Run} :
    conclude s x = .next t ↔ x = .ok t ∨ ∃ f, x = .error (.busError f) ∧ t = takeBusError s f := by
  cases x with
  | ok u => simp [conclude]
  | error h => cases h <;> simp [conclude, eq_comm]

/-! ## The accountant -/

/-- Everything a charge can do (R108). -/
theorem charge_cases (kind : EventKind) (h : Bool) (s : State) :
    (s.exhausted = true ∧ charge kind h s = (false, s)) ∨
    (s.exhausted = false ∧ eventCost s kind h ≤ s.budget ∧
      charge kind h s = (true, { s with budget := s.budget - eventCost s kind h })) ∨
    (s.exhausted = false ∧ s.budget < eventCost s kind h ∧
      charge kind h s = (false, { s with budget := 0, exhausted := true })) := by
  unfold charge
  cases s.exhausted <;> simp
  omega

/-- A charge changes the budget and `exhausted` only. -/
theorem charge_eq (kind : EventKind) (h : Bool) (s : State) :
    (charge kind h s).2 = { s with budget := (charge kind h s).2.budget, exhausted := (charge kind h s).2.exhausted } := by
  rcases charge_cases kind h s with ⟨_, e⟩ | ⟨_, _, e⟩ | ⟨_, _, e⟩ <;> rw [e]

/-- A charge answers whether the line may go on: false exactly if `exhausted` is set after it (R108, R109). -/
theorem charge_answer (kind : EventKind) (h : Bool) (s : State) :
    (charge kind h s).1 = !(charge kind h s).2.exhausted := by
  rcases charge_cases kind h s with ⟨h1, e⟩ | ⟨h1, _, e⟩ | ⟨h1, _, e⟩ <;> rw [e] <;> simp [h1]

/-- A charge never raises the budget. -/
theorem charge_budget_le (kind : EventKind) (h : Bool) (s : State) : (charge kind h s).2.budget ≤ s.budget := by
  rcases charge_cases kind h s with ⟨_, e⟩ | ⟨_, _, e⟩ | ⟨_, _, e⟩ <;> rw [e] <;> simp

/-- A charge leaves `exhausted` set, and then the budget is 0 if it was before (R112). -/
theorem charge_exhausted (kind : EventKind) (h : Bool) (s : State) :
    (s.exhausted = true → (charge kind h s).2.exhausted = true) ∧
    ((s.exhausted = true → s.budget = 0) → (charge kind h s).2.exhausted = true → (charge kind h s).2.budget = 0) := by
  rcases charge_cases kind h s with ⟨h1, e⟩ | ⟨h1, _, e⟩ | ⟨h1, _, e⟩ <;> rw [e] <;> simp [h1]

/-! ## Line buffers -/

/-- Storing a cell off the line is no store: what `PutCell` does is one `set` of the write buffer, or nothing. -/
theorem putCell_cases (x : Pos) (pal : BitVec 3) (c : BitVec 2) (s : State) :
    putCell x pal c s = s ∨
    ∃ e, cellFor s pal c = some e ∧ pipelineTarget s.par x < Config.lineCells ∧
      putCell x pal c s = setWriteBuffer s ((writeBuffer s).set (pipelineTarget s.par x) e) := by
  unfold putCell
  simp only
  split
  · exact .inl rfl
  · next h =>
    cases hc : cellFor s pal c with
    | none => exact .inl rfl
    | some e => exact .inr ⟨e, rfl, by omega, rfl⟩

/-- Putting the write buffer back changes nothing. -/
theorem setWriteBuffer_self (s : State) : setWriteBuffer s (writeBuffer s) = s := by
  unfold setWriteBuffer writeBuffer; split <;> rfl

/-- `PutCell` changes the write buffer only. -/
theorem putCell_eq (x : Pos) (pal : BitVec 3) (c : BitVec 2) (s : State) :
    putCell x pal c s = setWriteBuffer s (writeBuffer (putCell x pal c s)) := by
  rcases putCell_cases x pal c s with h | ⟨e, _, _, h⟩
  · rw [h, setWriteBuffer_self]
  · rw [h]; simp

/-- `PutCell` keeps the write buffer's length. -/
theorem putCell_length (x : Pos) (pal : BitVec 3) (c : BitVec 2) (s : State) :
    (writeBuffer (putCell x pal c s)).length = (writeBuffer s).length := by
  rcases putCell_cases x pal c s with h | ⟨e, _, _, h⟩
  · rw [h]
  · rw [h]; simp

/-- A state with another write buffer, of the same length and nothing else changed. -/
def SameButCells (s t : State) : Prop :=
  (∃ b, b.length = (writeBuffer s).length ∧ t = setWriteBuffer s b)

theorem SameButCells.refl (s : State) : SameButCells s s :=
  ⟨writeBuffer s, rfl, (setWriteBuffer_self s).symm⟩

theorem setWriteBuffer_setWriteBuffer (s : State) (b b' : LineBuffer) :
    setWriteBuffer (setWriteBuffer s b) b' = setWriteBuffer s b' := by
  unfold setWriteBuffer; cases s.writeSel <;> rfl

theorem SameButCells.trans {s t u : State} (h : SameButCells s t) (h' : SameButCells t u) : SameButCells s u := by
  obtain ⟨b, hb, rfl⟩ := h
  obtain ⟨b', hb', rfl⟩ := h'
  exact ⟨b', by simpa [hb] using hb', setWriteBuffer_setWriteBuffer s b b'⟩

theorem putCell_sameButCells (x : Pos) (pal : BitVec 3) (c : BitVec 2) (s : State) :
    SameButCells s (putCell x pal c s) :=
  ⟨_, putCell_length x pal c s, putCell_eq x pal c s⟩

theorem writeCellsWm0_sameButCells (pos : Pos) (c0 c1 c2 c3 : BitVec 2) (s : State) :
    SameButCells s (writeCellsWm0 pos c0 c1 c2 c3 s) := by
  unfold writeCellsWm0
  exact (((putCell_sameButCells _ _ _ _).trans (putCell_sameButCells _ _ _ _)).trans (putCell_sameButCells _ _ _ _)).trans
    (putCell_sameButCells _ _ _ _)

theorem writeCellsWm1_sameButCells (pos : Pos) (c0 c1 p0 p1 : BitVec 2) (s : State) :
    SameButCells s (writeCellsWm1 pos c0 c1 p0 p1 s) :=
  (putCell_sameButCells _ _ _ _).trans (putCell_sameButCells _ _ _ _)

/-- A graphics byte changes the write buffer and moves the walker one byte on; nothing else (R122). -/
theorem writeGraphicsByte_cases (b : Byte) (s : State) :
    ∃ t, SameButCells s t ∧ writeGraphicsByte b s = passBytes 1 t := by
  unfold writeGraphicsByte graphicsByteWm0 graphicsByteWm1
  split
  · exact ⟨_, writeCellsWm1_sameButCells _ _ _ _ _ _, rfl⟩
  · exact ⟨_, writeCellsWm0_sameButCells _ _ _ _ _ _, rfl⟩

/-- The graphics instructions are the graphics byte they are decoded from (R66, R122, R123). -/
theorem exec_decodeGraphics (b : Byte) (s : State) :
    exec (decodeGraphics s.writeMode b) s = .next (writeGraphicsByte b s) := by
  unfold decodeGraphics writeGraphicsByte
  cases s.writeMode <;> rfl

/-- After the swap the buffer just filled is the read buffer, and the write buffer is clear (R130). -/
theorem swapLineBuffers_buffers (s : State) :
    readBuffer (swapLineBuffers s) = writeBuffer s ∧ writeBuffer (swapLineBuffers s) = clearLine := by
  unfold swapLineBuffers readBuffer writeBuffer setWriteBuffer
  cases h : s.writeSel <;> simp

/-! ## Palettes -/

theorem palette_index_cases (p : BitVec 3) :
    p = 0 ∨ p = 1 ∨ p = 2 ∨ p = 3 ∨ p = 4 ∨ p = 5 ∨ p = 6 ∨ p = 7 := by
  revert p; decide

/-- A palette written is read back. -/
@[simp] theorem getPalette_putPalette_same (ps : Palettes) (p : BitVec 3) (v : Palette) :
    getPalette (putPalette ps p v) p = v := by
  rcases palette_index_cases p with h | h | h | h | h | h | h | h <;> subst h <;> rfl

/-- Writing one palette leaves the others alone. -/
theorem getPalette_putPalette_other (ps : Palettes) {p q : BitVec 3} (v : Palette) (h : q ≠ p) :
    getPalette (putPalette ps p v) q = getPalette ps q := by
  rcases palette_index_cases p with hp | hp | hp | hp | hp | hp | hp | hp <;> subst hp <;>
    rcases palette_index_cases q with hq | hq | hq | hq | hq | hq | hq | hq <;> subst hq <;>
      first
      | rfl
      | exact absurd rfl h

/-- The width of a raw field (R62). -/
theorem decodeWidth_eq (wraw : BitVec 5) : decodeWidth wraw = 32 - wraw.toNat := by
  revert wraw; decide

theorem decodeWidth_bounds (wraw : BitVec 5) : 1 ≤ decodeWidth wraw ∧ decodeWidth wraw ≤ 32 := by
  rw [decodeWidth_eq]; omega

end Sys2Proof.Machine
end

