-- ==== Sys2Proof/Laws/Frame.lean ====
section
/-! SUPPORT. What the parts of a scanline step change and what they keep: one frame for the walk of a display list,
one for the whole DMA of a line, each proved once for every part and cited from then on. -/
namespace Sys2Proof.Machine

/-- What R27 says of a header's fields: widths up to 32, and an end position has the fields R97 clears. -/
def HeaderOk (h : Header) : Prop :=
  h.width ≤ 32 ∧
  (h.isEnd = true → h.isLong = false ∧ h.lo = 0 ∧ h.hi = 0 ∧ h.pal = 0 ∧ h.width = 0 ∧ h.hpos = 0)

/-- What the DMA of a line may change: the zone, `zoneValid`, the header, `writeMode`, the budget, `exhausted`, the cells of
the write buffer, `out.dli`, and the model's `gfxIndex` and `reads`; and how. -/
structure DmaFrame (s t : State) : Prop where
  coord : t.coord = s.coord
  reg : t.reg = s.reg
  writeSel : t.writeSel = s.writeSel
  fault : t.fault = s.fault
  line : t.out.line = s.out.line
  dmaConsumed : t.out.dmaConsumed = s.out.dmaConsumed
  wsync : t.out.wsync = s.out.wsync
  mem : t.mem = s.mem
  busFaults : t.busFaults = s.busFaults
  inbox : t.inbox = s.inbox
  par : t.par = s.par
  portData : t.portData = s.portData
  draws : t.draws = s.draws
  readBuffer : readBuffer t = readBuffer s
  length : (writeBuffer t).length = (writeBuffer s).length
  budget : t.budget ≤ s.budget
  exhausted : s.exhausted = true → t.exhausted = true
  exhaustedZero : (s.exhausted = true → s.budget = 0) → t.exhausted = true → t.budget = 0
  header : HeaderOk s.dl → HeaderOk t.dl
  zone : s.zone.remaining ≤ s.zone.height → t.zone.remaining ≤ t.zone.height

/-- What walking a display list may change: as `DmaFrame`, less the zone and the request. -/
structure WalkFrame (s t : State) : Prop extends DmaFrame s t where
  sameZone : t.zone = s.zone
  zoneValid : t.zoneValid = s.zoneValid
  dli : t.out.dli = s.out.dli

theorem DmaFrame.refl (s : State) : DmaFrame s s := by constructor <;> simp

theorem WalkFrame.refl (s : State) : WalkFrame s s := ⟨DmaFrame.refl s, rfl, rfl, rfl⟩

theorem DmaFrame.trans {s t u : State} (h : DmaFrame s t) (k : DmaFrame t u) : DmaFrame s u where
  coord := k.coord.trans h.coord
  reg := k.reg.trans h.reg
  writeSel := k.writeSel.trans h.writeSel
  fault := k.fault.trans h.fault
  line := k.line.trans h.line
  dmaConsumed := k.dmaConsumed.trans h.dmaConsumed
  wsync := k.wsync.trans h.wsync
  mem := k.mem.trans h.mem
  busFaults := k.busFaults.trans h.busFaults
  inbox := k.inbox.trans h.inbox
  par := k.par.trans h.par
  portData := k.portData.trans h.portData
  draws := k.draws.trans h.draws
  readBuffer := k.readBuffer.trans h.readBuffer
  length := k.length.trans h.length
  budget := k.budget.trans h.budget
  exhausted := fun e => k.exhausted (h.exhausted e)
  exhaustedZero := fun z => k.exhaustedZero (h.exhaustedZero z)
  header := fun o => k.header (h.header o)
  zone := fun o => k.zone (h.zone o)

theorem WalkFrame.trans {s t u : State} (h : WalkFrame s t) (k : WalkFrame t u) : WalkFrame s u :=
  ⟨h.toDmaFrame.trans k.toDmaFrame, k.sameZone.trans h.sameZone, k.zoneValid.trans h.zoneValid, k.dli.trans h.dli⟩

/-! ## The small updates -/

theorem charge_frame (kind : EventKind) (h : Bool) (s : State) : WalkFrame s (charge kind h s).2 := by
  have e := charge_eq kind h s
  have x := charge_exhausted kind h s
  have b := charge_budget_le kind h s
  generalize hb : (charge kind h s).2.budget = n at e x b
  generalize hx : (charge kind h s).2.exhausted = y at e x b
  rw [e]
  exact ⟨⟨rfl, rfl, rfl, rfl, rfl, rfl, rfl, rfl, rfl, rfl, rfl, rfl, rfl, rfl, rfl, b, x.1, x.2, id, id⟩, rfl, rfl, rfl⟩

theorem reads_frame (s : State) (l : List (Addr × ReadOp)) : WalkFrame s { s with reads := l } := by
  refine ⟨?_, rfl, rfl, rfl⟩
  constructor <;> simp [Machine.readBuffer, writeBuffer]

theorem gfxIndex_frame (s : State) (n : Nat) : WalkFrame s { s with gfxIndex := n } := by
  refine ⟨?_, rfl, rfl, rfl⟩
  constructor <;> simp [Machine.readBuffer, writeBuffer]

theorem SameButCells.frame {s t : State} (h : SameButCells s t) : WalkFrame s t := by
  obtain ⟨b, hb, rfl⟩ := h
  refine ⟨?_, by simp, by simp, by simp⟩
  constructor <;> simp [hb]

theorem header_frame (s : State) (h : Header) (o : HeaderOk s.dl → HeaderOk h) : WalkFrame s { s with dl := h } := by
  refine ⟨?_, rfl, rfl, rfl⟩
  constructor <;> first | rfl | exact o | simp

theorem writeMode_frame (s : State) (w : Bool) : WalkFrame s { s with writeMode := w } := by
  refine ⟨?_, rfl, rfl, rfl⟩
  constructor <;> first | rfl | simp

theorem zone_frame (s : State) (z : Zone) (o : s.zone.remaining ≤ s.zone.height → z.remaining ≤ z.height) :
    DmaFrame s { s with zone := z } := by
  constructor <;> first | rfl | exact o | simp

theorem zoneValid_frame (s : State) (v : Bool) : DmaFrame s { s with zoneValid := v } := by
  constructor <;> first | rfl | simp

theorem raiseDli_frame (s : State) : DmaFrame s (raiseDli s) := by
  have h : DmaFrame s { s with out := { s.out with dli := true } } := by constructor <;> first | rfl | simp
  exact h.trans (charge_frame _ _ _).toDmaFrame

theorem busRead_frame {op : ReadOp} {a : Addr} {s : State} {r : Byte × State} (h : busRead op a s = .ok r) :
    WalkFrame s r.2 := by
  obtain ⟨b, _, rfl⟩ := busRead_ok.mp h
  exact reads_frame s _

/-! ## Instructions -/

theorem writeGraphicsByte_frame (b : Byte) (s : State) : WalkFrame s (writeGraphicsByte b s) := by
  obtain ⟨t, h, e⟩ := writeGraphicsByte_cases b s
  rw [e]
  exact h.frame.trans (gfxIndex_frame t _)

theorem drawCharacterBytes_frame {n : Nat} {a : Addr} {s t : State} (h : drawCharacterBytes n a s = .ok t) :
    WalkFrame s t := by
  induction n generalizing a s with
  | zero => cases h; exact .refl _
  | succ n ih =>
    unfold drawCharacterBytes at h
    cases hr : busRead .graphicsRead a s with
    | error e => rw [hr] at h; cases h
    | ok r =>
      rw [hr] at h
      exact ((busRead_frame hr).trans (writeGraphicsByte_frame _ _)).trans (ih h)

theorem drawCharacter_frame {c : Byte} {s t : State} (h : drawCharacter c s = .ok t) : WalkFrame s t := by
  unfold drawCharacter at h
  simp only at h
  have f := charge_frame (characterKind s) (holey s (characterBase s c)) s
  generalize charge (characterKind s) (holey s (characterBase s c)) s = r at h f
  obtain ⟨ok, u⟩ := r
  cases ok
  · cases h; exact f
  · simp only at h
    split at h
    · cases h; exact f.trans (gfxIndex_frame u _)
    · exact f.trans (drawCharacterBytes_frame h)

/-- An instruction of the walk that ends without a fault changes what `WalkFrame` says. -/
theorem runInstr_walk {i : Instr} {s t : State} (h : runInstr i s = .ok t)
    (hi : i.stream = .displayList ∨ i.stream = .characters ∨ ∃ w, i.stream = .graphics w) :
    WalkFrame s t := by
  obtain ⟨e, hf⟩ := resume_ok.mp h
  cases i with
  | dlEnd a b =>
    cases e
    exact header_frame s _ fun _ => ⟨by simp, fun _ => by simp⟩
  | dlLong lo wm ind hi pal wraw hpos =>
    cases e
    exact (writeMode_frame s wm).trans
      (header_frame _ _ fun _ => ⟨(decodeWidth_bounds wraw).2, fun k => absurd k (by simp)⟩)
  | dlShort lo pal wraw hi hpos =>
    cases e
    exact header_frame s _ fun _ => ⟨(decodeWidth_bounds wraw).2, fun k => absurd k (by simp)⟩
  | gfxWm0 c0 c1 c2 c3 =>
    cases e
    exact (writeCellsWm0_sameButCells _ _ _ _ _ s).frame.trans (gfxIndex_frame _ _)
  | gfxWm1 c0 c1 p0 p1 =>
    cases e
    exact (writeCellsWm1_sameButCells _ _ _ _ _ s).frame.trans (gfxIndex_frame _ _)
  | charptr c =>
    rcases conclude_next.mp e with k | ⟨f, _, rfl⟩
    · exact drawCharacter_frame k
    · simp at hf
  | _ => simp [Instr.stream] at hi

theorem decodeGraphics_stream (w : Bool) (b : Byte) : (decodeGraphics w b).stream = .graphics w := by
  cases w <;> rfl

/-! ## Objects -/

theorem drawDirectBytes_frame {n : Nat} {a : Addr} {s t : State} (h : drawDirectBytes n a s = .ok t) :
    WalkFrame s t := by
  induction n generalizing a s with
  | zero => cases h; exact .refl _
  | succ n ih =>
    unfold drawDirectBytes at h
    have f := charge_frame .graphicsDirect false s
    generalize charge .graphicsDirect false s = r at h f
    obtain ⟨ok, u⟩ := r
    cases ok
    · cases h; exact f
    · obtain ⟨x, hx, h⟩ := bind_ok.mp h
      obtain ⟨v, hv, h⟩ := bind_ok.mp h
      exact ((f.trans (busRead_frame hx)).trans
        (runInstr_walk hv (.inr (.inr ⟨_, decodeGraphics_stream _ _⟩)))).trans (ih h)

theorem drawDirect_frame {s t : State} (h : drawDirect s = .ok t) : WalkFrame s t := by
  unfold drawDirect at h
  simp only at h
  split at h
  · cases h; exact charge_frame _ _ _
  · exact drawDirectBytes_frame h

theorem drawCharacters_frame {n : Nat} {a : Addr} {s t : State} (h : drawCharacters n a s = .ok t) :
    WalkFrame s t := by
  induction n generalizing a s with
  | zero => cases h; exact .refl _
  | succ n ih =>
    unfold drawCharacters at h
    obtain ⟨x, hx, h⟩ := bind_ok.mp h
    obtain ⟨v, hv, h⟩ := bind_ok.mp h
    have f := (busRead_frame hx).trans (runInstr_walk hv (.inr (.inl rfl)))
    split at h
    · cases h; exact f
    · exact f.trans (ih h)

theorem drawObject_frame {s t : State} (h : drawObject s = .ok t) : WalkFrame s t := by
  unfold drawObject at h
  simp only at h
  have f := gfxIndex_frame s 0
  split at h
  · exact f.trans (drawCharacters_frame h)
  · exact f.trans (drawDirect_frame h)

/-! ## Headers and the display list -/

theorem fetchHeader_frame {s : State} {r : Instr × State} (h : fetchHeader s = .ok r) :
    WalkFrame s r.2 ∧ r.1.stream = .displayList := by
  unfold fetchHeader at h
  obtain ⟨x, hx, h⟩ := bind_ok.mp h
  have f := busRead_frame hx
  cases hc : classify x.1 with
  | endOfList =>
    simp only [hc] at h
    cases h; exact ⟨f, rfl⟩
  | long =>
    simp only [hc] at h
    obtain ⟨a, ha, h⟩ := bind_ok.mp h
    obtain ⟨b, hb, h⟩ := bind_ok.mp h
    obtain ⟨c, hd, h⟩ := bind_ok.mp h
    obtain ⟨d, he, h⟩ := bind_ok.mp h
    cases h
    exact ⟨(((f.trans (busRead_frame ha)).trans (busRead_frame hb)).trans (busRead_frame hd)).trans (busRead_frame he),
      rfl⟩
  | short =>
    simp only [hc] at h
    obtain ⟨a, ha, h⟩ := bind_ok.mp h
    obtain ⟨b, hb, h⟩ := bind_ok.mp h
    obtain ⟨c, hd, h⟩ := bind_ok.mp h
    cases h
    exact ⟨((f.trans (busRead_frame ha)).trans (busRead_frame hb)).trans (busRead_frame hd), rfl⟩

theorem decodeHeader_frame {s t : State} (h : decodeHeader s = .ok t) : WalkFrame s t := by
  unfold decodeHeader at h
  obtain ⟨x, hx, h⟩ := bind_ok.mp h
  obtain ⟨f, hs⟩ := fetchHeader_frame hx
  exact f.trans (runInstr_walk h (.inl hs))

theorem beginZone_frame {s t : State} (h : beginZone s = .ok t) : WalkFrame s t := by
  exact (header_frame s (atDisplayList s).dl (fun o => o)).trans (decodeHeader_frame h)

theorem advance_frame {s t : State} (h : advance s = .ok t) : WalkFrame s t := by
  exact (header_frame s (atNextHeader s).dl (fun o => o)).trans (decodeHeader_frame h)

theorem walkLoop_frame {n : Nat} {s t : State} (h : walkLoop n s = .ok t) : WalkFrame s t := by
  induction n generalizing s with
  | zero => cases h; exact .refl _
  | succ n ih =>
    unfold walkLoop at h
    split at h
    · cases h; exact .refl _
    · have f := charge_frame (headerKind s) false s
      generalize charge (headerKind s) false s = r at h f
      obtain ⟨ok, u⟩ := r
      cases ok
      · cases h; exact f
      · obtain ⟨v, hv, h⟩ := bind_ok.mp h
        have g := f.trans (drawObject_frame hv)
        split at h
        · cases h; exact g
        · obtain ⟨w, hw, h⟩ := bind_ok.mp h
          exact (g.trans (advance_frame hw)).trans (ih h)

theorem walkDisplayList_frame {s t : State} (h : walkDisplayList s = .ok t) : WalkFrame s t := by
  unfold walkDisplayList at h
  split at h
  · cases h; exact .refl _
  · obtain ⟨v, hv, h⟩ := bind_ok.mp h
    exact (beginZone_frame hv).trans (walkLoop_frame h)

/-! ## Zones and the line -/

theorem readZoneRecord_frame {s t : State} (h : readZoneRecord s = .ok t) : DmaFrame s t := by
  unfold readZoneRecord fetchZone at h
  obtain ⟨x, hx, h⟩ := bind_ok.mp h
  obtain ⟨a, ha, hx⟩ := bind_ok.mp hx
  obtain ⟨b, hb, hx⟩ := bind_ok.mp hx
  obtain ⟨c, hc, hx⟩ := bind_ok.mp hx
  have f := ((busRead_frame ha).trans (busRead_frame hb)).trans (busRead_frame hc)
  cases hx
  obtain ⟨e, -⟩ := resume_ok.mp h
  cases e
  exact f.toDmaFrame.trans (zone_frame _ _ fun _ => BitVec.le_refl _)

theorem beginFrame_frame {s t : State} (h : beginFrame s = .ok t) : DmaFrame s t := by
  exact (zone_frame s (atZoneList s).zone (fun o => o)).trans (readZoneRecord_frame h)

theorem countdown_le {r h : BitVec 4} (o : r ≤ h) (z : (r == 0) = false) : r - 1 ≤ h := by
  have : r ≠ 0 := by simpa using z
  bv_omega

theorem advanceIfExpired_frame {s : State} {r : Bool × State} (h : advanceIfExpired s = .ok r) : DmaFrame s r.2 := by
  unfold advanceIfExpired at h
  split at h
  · obtain ⟨v, hv, h⟩ := bind_ok.mp h
    cases h
    exact (zone_frame s (atNextZone s).zone (fun o => o)).trans (readZoneRecord_frame hv)
  · next z =>
    cases h
    exact zone_frame s _ fun o => countdown_le o (by simpa using z)

theorem frameStart_frame {s t : State} (h : frameStart s = .ok t) : DmaFrame s t := by
  unfold frameStart at h
  split at h
  · split at h
    · obtain ⟨v, hv, h⟩ := bind_ok.mp h
      have f := ((beginFrame_frame hv).trans (zoneValid_frame v true)).trans (charge_frame .endOfBlank false _).toDmaFrame
      simp only at h
      split at h
      · cases h; exact f.trans (raiseDli_frame _)
      · cases h; exact f
    · cases h; exact zoneValid_frame s false
  · cases h; exact .refl _

theorem countdown_frame {s t : State} (h : countdown s = .ok t) : DmaFrame s t := by
  unfold countdown at h
  obtain ⟨v, hv, h⟩ := bind_ok.mp h
  have f := advanceIfExpired_frame hv
  simp only at h
  split at h
  · cases h; exact f.trans (raiseDli_frame _)
  · cases h; exact f

theorem lineDma_frame {s t : State} (h : lineDma s = .ok t) : DmaFrame s t := by
  unfold lineDma at h
  split at h
  · obtain ⟨v, hv, h⟩ := bind_ok.mp h
    exact ((charge_frame _ _ _).trans (walkDisplayList_frame hv)).toDmaFrame.trans (countdown_frame h)
  · cases h; exact .refl _

/-- What a scanline step's body does, in parts: the output, the line's start, its DMA (framed), and its end (R76). -/
theorem scanline_ok {s t : State} (h : scanline s = .ok t) :
    ∃ u, DmaFrame (beginLine (outputLine s)) u ∧ t = endLine u := by
  unfold scanline at h
  obtain ⟨v, hv, h⟩ := bind_ok.mp h
  obtain ⟨w, hw, h⟩ := bind_ok.mp h
  cases h
  exact ⟨w, (frameStart_frame hv).trans (lineDma_frame hw), rfl⟩

end Sys2Proof.Machine
end

