-- ==== Sys2Proof/Laws/Step.lean ====
section
/-! SUPPORT. What a step can do, said once: whose turn it is, the ends of a scanline step, and what the end of a line leaves. -/
namespace Sys2Proof.Machine

/-! ## Turns -/

@[simp] theorem afterTurn_inbox (s : State) : s.afterTurn.inbox = s.inbox.tail := rfl
@[simp] theorem afterTurn_coord (s : State) : s.afterTurn.coord = s.coord := rfl
@[simp] theorem afterTurn_reg (s : State) : s.afterTurn.reg = s.reg := rfl
@[simp] theorem afterTurn_zone (s : State) : s.afterTurn.zone = s.zone := rfl
@[simp] theorem afterTurn_zoneValid (s : State) : s.afterTurn.zoneValid = s.zoneValid := rfl
@[simp] theorem afterTurn_dl (s : State) : s.afterTurn.dl = s.dl := rfl
@[simp] theorem afterTurn_writeMode (s : State) : s.afterTurn.writeMode = s.writeMode := rfl
@[simp] theorem afterTurn_budget (s : State) : s.afterTurn.budget = s.budget := rfl
@[simp] theorem afterTurn_exhausted (s : State) : s.afterTurn.exhausted = s.exhausted := rfl
@[simp] theorem afterTurn_buf0 (s : State) : s.afterTurn.buf0 = s.buf0 := rfl
@[simp] theorem afterTurn_buf1 (s : State) : s.afterTurn.buf1 = s.buf1 := rfl
@[simp] theorem afterTurn_writeSel (s : State) : s.afterTurn.writeSel = s.writeSel := rfl
@[simp] theorem afterTurn_fault (s : State) : s.afterTurn.fault = s.fault := rfl
@[simp] theorem afterTurn_out (s : State) : s.afterTurn.out = s.out := rfl
@[simp] theorem afterTurn_mem (s : State) : s.afterTurn.mem = s.mem := rfl
@[simp] theorem afterTurn_busFaults (s : State) : s.afterTurn.busFaults = s.busFaults := rfl
@[simp] theorem afterTurn_par (s : State) : s.afterTurn.par = s.par := rfl
@[simp] theorem afterTurn_portData (s : State) : s.afterTurn.portData = s.portData := rfl
@[simp] theorem afterTurn_gfxIndex (s : State) : s.afterTurn.gfxIndex = s.gfxIndex := rfl
@[simp] theorem afterTurn_reads (s : State) : s.afterTurn.reads = s.reads := rfl
@[simp] theorem afterTurn_draws (s : State) : s.afterTurn.draws = s.draws := rfl

@[simp] theorem busByte_afterTurn (s : State) (a : Addr) : busByte s.afterTurn a = busByte s a := rfl
@[simp] theorem readBuffer_afterTurn (s : State) : readBuffer s.afterTurn = readBuffer s := rfl
@[simp] theorem writeBuffer_afterTurn (s : State) : writeBuffer s.afterTurn = writeBuffer s := rfl
@[simp] theorem dmaRuns_afterTurn (s : State) : dmaRuns s.afterTurn = dmaRuns s := rfl

/-- On the block's turn a step is a scanline step of the state without that turn. -/
theorem step_blockTurn {s : State} (h : s.blockTurn) : step s = stepScanline s.afterTurn := by
  unfold step stepOnce State.afterTurn
  rcases h with h | ⟨rest, h⟩
  · rw [h]; simp only [List.tail_nil]; rw [← h]
  · rw [h]; rfl

/-- On the host's turn a step is its move, of the state without that turn. -/
theorem step_hostMove {s : State} {m : HostMove} {rest : List HostMove} (h : s.inbox = m :: rest) :
    step s = hostMove m { s with inbox := rest } := by
  unfold step stepOnce; rw [h]

/-! ## The scanline step -/

/-- A completed scanline is its frame start, its DMA and its end (R76). -/
theorem scanline_parts {s t : State} (h : scanline s = .ok t) :
    ∃ u v, frameStart (lineStart s) = .ok u ∧ lineDma u = .ok v ∧ t = endLine v := by
  unfold scanline at h
  obtain ⟨v, hv, h⟩ := bind_ok.mp h
  obtain ⟨w, hw, h⟩ := bind_ok.mp h
  cases h; exact ⟨v, w, hv, hw, rfl⟩

/-- The next states of a scanline step: the line completed, or the start with a bus error recorded (R75, R102, R158). -/
theorem stepScanline_next {s t : State} : stepScanline s = .next t ↔
    s.fault = none ∧ headerCostsPositive s.par = true ∧
      (scanline s = .ok t ∨ ∃ f, scanline s = .error (.busError f) ∧ t = takeBusError s f) := by
  unfold stepScanline
  cases s.fault with
  | some f => simp
  | none =>
    cases headerCostsPositive s.par
    · simp
    · simp [conclude_next]

/-- What the end of a line leaves (R83, R130, R73, R146): every field it does not name is the DMA's. -/
theorem endLine_eq (u : State) : endLine u =
    { u with
      coord := (endLine u).coord
      out := { u.out with dmaConsumed := u.par.dmaMaxCycles - u.budget, wsync := false }
      gfxIndex := 0
      writeSel := !u.writeSel
      buf0 := (endLine u).buf0
      buf1 := (endLine u).buf1 } := by
  unfold endLine tick swapLineBuffers setWriteBuffer
  simp only
  split <;> split <;> rfl

/-- The end of a line ticks the coordinates, and nothing else touches them (R16, R73). -/
theorem endLine_coord (u : State) : (endLine u).coord = (tick u).coord := by
  unfold endLine swapLineBuffers setWriteBuffer
  cases u.writeSel <;> simp only [Bool.not_true, Bool.not_false, if_true, Bool.false_eq_true, if_false] <;>
    unfold tick <;> simp only <;> split <;> rfl

/-- A tick depends on the coordinates and the parameters alone (R73). -/
theorem tick_coord_congr {s t : State} (hc : t.coord = s.coord) (hp : t.par = s.par) : (tick t).coord = (tick s).coord := by
  unfold tick; rw [hc, hp]; split <;> rfl

/-- The buffers after the end of a line (R130). -/
theorem endLine_buffers (u : State) : readBuffer (endLine u) = writeBuffer u ∧ writeBuffer (endLine u) = clearLine := by
  have h : ∀ w : State, readBuffer (tick w) = readBuffer w ∧ writeBuffer (tick w) = writeBuffer w := by
    intro w; unfold tick; split <;> exact ⟨rfl, rfl⟩
  unfold endLine
  rw [(h _).1, (h _).2, (swapLineBuffers_buffers _).1, (swapLineBuffers_buffers _).2]
  exact ⟨rfl, rfl⟩

/-- A completed scanline step keeps the fault record, so it ends with none (R75). -/
theorem scanline_fault {s t : State} (h : scanline s = .ok t) : t.fault = s.fault := by
  obtain ⟨u, f, rfl⟩ := scanline_ok h
  rw [endLine_eq]; exact f.fault

/-- A scanline step that ends without a fault has completed its line (R76, R158). -/
theorem step_completed {s t : State} (hb : s.blockTurn) (h : step s = .next t) (ht : t.fault = none) :
    ∃ u v, frameStart (lineStart s.afterTurn) = .ok u ∧ lineDma u = .ok v ∧ t = endLine v := by
  rw [step_blockTurn hb] at h
  obtain ⟨-, -, h | ⟨f, -, rfl⟩⟩ := stepScanline_next.mp h
  · exact scanline_parts h
  · cases ht

end Sys2Proof.Machine
end

