-- ==== Sys2Proof/Tests/Slice0.lean ====
section
/-! SUPPORT. Tests: expected values are those of 95_test_vectors.md (named V-… and P…) or worked out from its rules.
A witness theorem shows states and operands that meet the hypotheses of an obligation, clause by clause. -/
namespace Sys2Proof.Tests
open Sys2Proof Sys2Proof.Machine

/-! ## Helpers -/

/-- An answer is a next state that passes a check. -/
def answers (r : Result) (p : State → Bool) : Bool :=
  match r with
  | .next t => p t
  | .fault _ => false
  | .refused _ => false

theorem answers_next {r : Result} {p : State → Bool} (h : answers r p = true) : ∃ t, r = .next t ∧ p t = true := by
  cases r with
  | next t => exact ⟨t, rfl, h⟩
  | fault f => cases h
  | refused f => cases h

/-- A register bank: colour j of palette p is `0x<p><j>`, the background 0x80, the zone list at 0x1000, DMA on. -/
def bank : Regs where
  background := 0x80#8
  palette :=
    { p0 := ⟨0x01, 0x02, 0x03⟩, p1 := ⟨0x11, 0x12, 0x13⟩, p2 := ⟨0x21, 0x22, 0x23⟩, p3 := ⟨0x31, 0x32, 0x33⟩,
      p4 := ⟨0x41, 0x42, 0x43⟩, p5 := ⟨0x51, 0x52, 0x53⟩, p6 := ⟨0x61, 0x62, 0x63⟩, p7 := ⟨0x71, 0x72, 0x73⟩ }
  dpph := 0x10#8
  dppl := 0x00#8
  chbase := 0x50#8
  offset := 0x00#8
  ctrl := { colourKill := false, dmaLevel := 2, charWidth := true, border := false, kangaroo := false, readMode := 0 }

/-- The state after a reset under the test configuration with the bank above. -/
def base : State := State.resetWith { Config.testConfiguration with resetRegs := some bank } 0

/-- The memory of program P1 (95 section 4). -/
def p1Memory : Memory :=
  [(0x1001, 0x18), (0x1004, 0x18), (0x1005, 0x20), (0x1006, 0x0F), (0x1007, 0x18), (0x1008, 0x20), (0x1801, 0x5C),
    (0x1802, 0x20), (0x1803, 0x0A), (0x2000, 0xFF), (0x2001, 0x55), (0x2002, 0xAA)]

/-- P1 before the step of line `n`, no zone read yet. -/
def p1At (n : Nat) : State := { base with mem := p1Memory, coord := { frame := 0, scanline := n, clock := 0 } }

/-- P1 on line 20, inside a zone that has `r` lines left after this one. -/
def inZone (r : BitVec 4) : State :=
  { p1At 20 with
    zoneValid := true,
    zone := { base.zone with origin := 0x1000, height := 5, remaining := r, dlHi := 0x18, dlLo := 0x00 } }

/-- The state with a scanline step first among the host's turns, and a port access after it. -/
def letStep (s : State) : State := { s with inbox := [.scanline, .port 0x1C .read] }

/-- `base` with an object: palette `pal` at position `hpos`, in write mode `wm`. -/
def drawing (wm : Bool) (pal : BitVec 3) (hpos : Pos) : State :=
  { base with writeMode := wm, dl := { base.dl with pal := pal, hpos := hpos } }

/-- The state with kangaroo mode on. -/
def kangarooOn (s : State) : State := { s with reg := { s.reg with ctrl := { s.reg.ctrl with kangaroo := true } } }

/-- Cell `n` of the write buffer. -/
def cell (s : State) (n : Nat) : LineEntry := (writeBuffer s).getD n .unset

/-! ## Well-formedness -/

/-- R63: a short header with raw width 0 would read as an end sentinel or a long header. -/
theorem test_short_header_width_zero_refused : Instr.wellFormed (.dlShort 0x34 0 0 0x12 0x56) = false := by decide

/-! ## Decoding: bytes written out from the layouts -/

/-- V-ZR1, V-ZR4. -/
theorem test_decode_zone :
    decode .zoneList [0x8F, 0x18, 0x20] = .ok (.zone true false false false 15 0x18 0x20, []) ∧
    decode .zoneList [0x10, 0, 0] = .ok (.zone false false false true 0 0 0, []) := by decide

/-- V-HD1 (S4). -/
theorem test_decode_dlEnd :
    decode .displayList [0x77, 0x80] = .ok (.dlEnd true false, []) ∧
    decode .displayList [0x77, 0x20] = .ok (.dlEnd false true, []) := by decide

/-- V-HD7, V-HD8. -/
theorem test_decode_dlLong :
    decode .displayList [0x00, 0xC0, 0x40, 0xBE, 0x14] = .ok (.dlLong 0x00 true false 0x40 5 0x1E 0x14, []) ∧
    decode .displayList [0x00, 0x60, 0x21, 0x1D, 0x00] = .ok (.dlLong 0x00 false true 0x21 0 0x1D 0x00, []) := by decide

/-- V-HD3, and S5 (0x41 is short). -/
theorem test_decode_dlShort :
    decode .displayList [0x34, 0x01, 0x12, 0x56] = .ok (.dlShort 0x34 0 1 0x12 0x56, []) ∧
    decode .displayList [0x00, 0x41, 0x12, 0x56] = .ok (.dlShort 0x00 2 1 0x12 0x56, []) := by decide

/-- V-WB1: 0x6C is the colours 1, 2, 3, 0. -/
theorem test_decode_gfxWm0 : decode (.graphics false) [0x6C] = .ok (.gfxWm0 1 2 3 0, []) := by decide

/-- V-WB3: 0xD9 is the colours 3, 1 and the low palette fields 2, 1. -/
theorem test_decode_gfxWm1 : decode (.graphics true) [0xD9] = .ok (.gfxWm1 3 1 2 1, []) := by decide

theorem test_decode_charptr : decode .characters [0xFF] = .ok (.charptr 0xFF, []) := by decide

/-- The offset map of R17 (offset byte, direction, value). -/
theorem test_decode_port :
    decode .port [0x00, 0, 7] = .ok (.regBackgrnd (.write 7), []) ∧
    decode .port [0x04, 0, 7] = .ok (.regWsync (.write 7), []) ∧
    decode .port [0x08, 1] = .ok (.regMstat .read, []) ∧ decode .port [0x0C, 0, 7] = .ok (.regDpph (.write 7), []) ∧
    decode .port [0x10, 0, 7] = .ok (.regDppl (.write 7), []) := by decide

/-- The offset map of R17, the other offsets. -/
theorem test_decode_port_more :
    decode .port [0x14, 0, 7] = .ok (.regChbase (.write 7), []) ∧
    decode .port [0x18, 0, 7] = .ok (.regOffset (.write 7), []) ∧
    decode .port [0x1C, 0, 7] = .ok (.regCtrl (.write 7), []) ∧
    decode .port [0x01, 0, 7] = .ok (.regPaletteC1 0 (.write 7), []) ∧
    decode .port [0x0E, 0, 7] = .ok (.regPaletteC2 3 (.write 7), []) ∧
    decode .port [0x1F, 1] = .ok (.regPaletteC3 7 .read, []) := by decide

theorem test_decode_rejects :
    decode .zoneList [0x8F, 0x18] = .error .truncated ∧ decode .displayList [0x00, 0x40, 0x00, 0x00] = .error .truncated ∧
    decode .port [0x20, 1] = .error .offsetBeyondPort ∧ decode .port [0x00, 2] = .error .badDirection := by decide

/-- The width table of 95 section 3.2 (S3). -/
theorem test_widths :
    [0, 1, 2, 3, 4, 8, 0x0F, 0x10, 0x11, 0x18, 0x1C, 0x1D, 0x1E, 0x1F].map decodeWidth =
      [32, 31, 30, 29, 28, 24, 17, 16, 15, 8, 4, 3, 2, 1] := by decide

/-- P3's long header and P1's zone line in the notation of R71. -/
theorem test_assembler :
    AsmLine.emit (.hdr5 0x2100 false true 0 3 0) = [0x00, 0x60, 0x21, 0x1D, 0x00] ∧
    AsmLine.emit (.zone true false true 15 0x1820) = [0xAF, 0x18, 0x20] ∧
    AsmLine.emit (.hdr4 0x2000 2 4 10) = [0x00, 0x5C, 0x20, 0x0A] := by decide

/-! ## Instructions -/

/-- V-ZR1. -/
theorem test_exec_zone :
    answers (exec (decodeZone 0x8F 0x18 0x20) base) (fun t =>
      t.zone.dli && !t.zone.hole16 && !t.zone.hole8 && t.zone.height == 15 && t.zone.remaining == 15 &&
        t.zone.dlHi == 0x18 && t.zone.dlLo == 0x20) = true := by decide

/-- V-HD1: an end sentinel clears the fields and keeps `writeMode` and `indirect`. -/
theorem test_exec_dlEnd :
    answers (exec (decodeEnd 0xA0) { drawing true 5 20 with dl := { (drawing true 5 20).dl with indirect := true } })
      (fun t => t.dl.isEnd && t.dl.pal == 0 && t.dl.hpos == 0 && t.dl.width == 0 && t.dl.indirect && t.writeMode) =
      true := by decide

/-- V-HD9, V-HD10: raw width 0 is 32; wm is written either way. -/
theorem test_exec_dlLong :
    answers (exec (decodeLong 0x00 0xE0 0x40 0xE0 0x00) base)
      (fun t => t.writeMode && t.dl.indirect && t.dl.pal == 7 && t.dl.width == 32) = true ∧
    answers (exec (decodeLong 0x00 0x40 0x40 0x00 0x00) (drawing true 0 0)) (fun t => !t.writeMode && !t.dl.indirect) =
      true := by decide

/-- V-HD2, S2: a short header is direct and keeps `writeMode`. -/
theorem test_exec_dlShort :
    answers (exec (decodeShort 0x00 0x5C 0x18 0x0A) (drawing true 0 0))
      (fun t => t.writeMode && !t.dl.indirect && t.dl.pal == 2 && t.dl.width == 4 && t.dl.hi == 0x18 && t.dl.hpos == 10) =
      true := by decide

/-- V-WB1, V-WB2. -/
theorem test_exec_gfxWm0 :
    answers (exec (decodeGraphics false 0x6C) (drawing false 2 10)) (fun t =>
      cell t 10 == .set 2 (.ix 1) && cell t 11 == .set 2 (.ix 2) && cell t 12 == .set 2 (.ix 3) && cell t 13 == .unset) =
      true ∧
    answers (exec (decodeGraphics false 0x6C) (kangarooOn (drawing false 2 10))) (fun t => cell t 13 == .set 2 .bg) =
      true := by decide

/-- V-PC1, V-PC2, V-PC4: the ends of the line, and the pipeline offset. -/
theorem test_gfx_clipped :
    answers (exec (decodeGraphics false 0xFF) (drawing false 1 158)) (fun t =>
      cell t 158 == .set 1 (.ix 3) && cell t 159 == .set 1 (.ix 3) && (writeBuffer t).length == 160 &&
        cell t 0 == .unset) = true ∧
    answers (exec (decodeGraphics false 0xFF) (drawing false 1 254)) (fun t =>
      cell t 0 == .set 1 (.ix 3) && cell t 1 == .set 1 (.ix 3) && cell t 2 == .unset) = true ∧
    answers (exec (decodeGraphics false 0xFF)
      { drawing false 1 0 with par := { Config.testConfiguration with pipelineLength := 2 } }) (fun t =>
      cell t 0 == .set 1 (.ix 3) && cell t 1 == .set 1 (.ix 3) && cell t 2 == .unset) = true := by decide +kernel

/-- V-WB3, V-WB6, V-WB5. -/
theorem test_exec_gfxWm1 :
    answers (exec (decodeGraphics true 0xD9) (drawing true 5 20)) (fun t =>
      cell t 20 == .set 6 (.ix 3) && cell t 21 == .set 5 (.ix 1)) = true ∧
    answers (exec (decodeGraphics true 0xE4) (drawing true 2 0)) (fun t =>
      cell t 0 == .set 1 (.ix 3) && cell t 1 == .set 0 (.ix 2)) = true ∧
    answers (exec (decodeGraphics true 0x0F) (kangarooOn (drawing true 5 30))) (fun t =>
      cell t 30 == .set 7 .bg && cell t 31 == .set 7 .bg) = true := by decide

/-- P3's first character: charged 6, read at 0x5001, its byte 0xFF drawn at 0. -/
theorem test_exec_charptr :
    answers (exec (.charptr 0x01) { base with mem := [(0x5001, 0xFF)] }) (fun t =>
      t.budget == 394 && t.reads == [(0x5001, .graphicsRead)] && cell t 0 == .set 0 (.ix 3) &&
        cell t 3 == .set 0 (.ix 3) && cell t 4 == .unset) = true := by decide

/-- V-GA4: two bytes per character, `remaining` 3; V-HO6: a holey character costs 3 and reads nothing. -/
theorem test_exec_charptr_wide_holey :
    answers (exec (.charptr 0xFF)
      { base with
        zone := { base.zone with remaining := 3 },
        reg := { bank with ctrl := { bank.ctrl with charWidth := false } } })
      (fun t => t.reads == [(0x53FF, .graphicsRead), (0x5400, .graphicsRead)] && t.budget == 391) = true ∧
    answers (exec (.charptr 0x02)
      { base with zone := { base.zone with hole16 := true }, reg := { bank with chbase := 0x90 } })
      (fun t => t.reads == [] && t.budget == 397 && cell t 0 == .unset && t.gfxIndex == 1) = true := by decide

/-- Writes (V-RG1, V-RG2, V-RG7, V-RG10, V-RG11). -/
theorem test_port_writes :
    answers (exec (.regBackgrnd (.write 0x33)) base) (fun t => t.reg.background == 0x33) = true ∧
    answers (exec (.regWsync (.write 0xFF)) base) (fun t => t.out.wsync && t.reg == bank) = true ∧
    answers (exec (.regMstat (.write 0xFF)) base) (fun t => t == base) = true ∧
    answers (exec (.regDpph (.write 0x20)) base) (fun t => t.reg.dpph == 0x20 && t.reg.dppl == 0) = true ∧
    answers (exec (.regDppl (.write 0x21)) base) (fun t => t.reg.dppl == 0x21 && t.reg.dpph == 0x10) = true ∧
    answers (exec (.regChbase (.write 0x60)) base) (fun t => t.reg.chbase == 0x60) = true ∧
    answers (exec (.regOffset (.write 0x61)) base) (fun t => t.reg.offset == 0x61) = true ∧
    answers (exec (.regCtrl (.write 0x43)) base)
      (fun t => t.reg.ctrl == ⟨false, 2, false, false, false, 3⟩) = true ∧
    answers (exec (.regPaletteC1 0 (.write 0x91)) base) (fun t => t.reg.palette.p0 == ⟨0x91, 0x02, 0x03⟩) = true ∧
    answers (exec (.regPaletteC2 3 (.write 0x42)) base) (fun t => t.reg.palette.p3 == ⟨0x31, 0x42, 0x33⟩) = true ∧
    answers (exec (.regPaletteC3 7 (.write 0x93)) base) (fun t => t.reg.palette.p7 == ⟨0x71, 0x72, 0x93⟩) = true := by
  decide +kernel

/-- Reads (V-RG1, V-RG8, V-RG9). -/
theorem test_port_reads :
    answers (exec (.regBackgrnd .read) base) (fun t => t.portData == 0x80) = true ∧
    answers (exec (.regPaletteC1 6 .read) base) (fun t => t.portData == 0x61) = true ∧
    answers (exec (.regPaletteC2 3 .read) base) (fun t => t.portData == 0x32) = true ∧
    answers (exec (.regPaletteC3 7 .read) base) (fun t => t.portData == 0x73) = true ∧
    [(5, 0x80), (15, 0x80), (16, 0x00), (258, 0x00), (259, 0x80)].all (fun x =>
      answers (exec (.regMstat .read) (p1At x.1)) (fun t => t.portData == x.2)) = true ∧
    [Instr.regWsync .read, .regDpph .read, .regDppl .read, .regChbase .read, .regOffset .read, .regCtrl .read].all
      (fun i => answers (exec i { base with portData := 0x55 }) (fun t => t.portData == 0)) = true := by decide

/-- V-RG3 to V-RG6. -/
theorem test_ctrl_bits :
    decodeCtrl 0x50 = ⟨false, 2, true, false, false, 0⟩ ∧ decodeCtrl 0x60 = ⟨false, 3, false, false, false, 0⟩ ∧
    decodeCtrl 0x7F = ⟨false, 3, true, true, true, 3⟩ ∧ decodeCtrl 0x80 = ⟨true, 0, false, false, false, 0⟩ := by decide

/-! ## Shared operations -/

/-- V-CH1 to V-CH8. -/
theorem test_charge :
    charge .headerShort false { base with budget := 10 } = (true, { base with budget := 2 }) ∧
    charge .graphicsDirect false { base with budget := 2 } = (false, { base with budget := 0, exhausted := true }) ∧
    charge .zoneStartup false { base with budget := 0, exhausted := true } =
      (false, { base with budget := 0, exhausted := true }) ∧
    charge .graphicsDirect false { base with budget := 3 } = (true, { base with budget := 0 }) ∧
    charge .graphicsDirect false { base with budget := 0 } = (false, { base with budget := 0, exhausted := true }) ∧
    charge .graphicsDirect true { base with budget := 5 } = (true, { base with budget := 2 }) ∧
    charge .graphicsIndirectWide true { base with budget := 5 } = (true, { base with budget := 2 }) := by decide

/-- V-HO1 to V-HO3, V-HO5. -/
theorem test_holey :
    [0x9000, 0xF000, 0x9FFF, 0x8800, 0x8000, 0x7000, 0x1000].map
      (holey { base with zone := { base.zone with hole16 := true } }) =
      [true, true, true, false, false, false, false] ∧
    [0x8800, 0xF800, 0x8700, 0x9000, 0x0800].map (holey { base with zone := { base.zone with hole8 := true } }) =
      [true, true, false, false, false] ∧
    [0x8800, 0x9000, 0x9800, 0x8000, 0x8700].map
      (holey { base with zone := { base.zone with hole16 := true, hole8 := true } }) =
      [true, true, true, false, false] ∧
    [0x8800, 0x9000, 0xFFFF].map (holey base) = [false, false, false] := by decide

/-- V-RS1 to V-RS7. -/
theorem test_resolve :
    resolveCell bank .unset = (0x80, 0x80) ∧ resolveCell bank (.set 2 .bg) = (0x80, 0x80) ∧
    resolveCell bank (.set 2 (.ix 3)) = (0x23, 0x23) ∧ resolveCell bank (.set 7 (.ix 1)) = (0x71, 0x71) ∧
    [2, 1, 3, 0].map (fun c => resolveCell { bank with ctrl := { bank.ctrl with readMode := 3 } } (.set 2 (.ix c))) =
      [(0x22, 0x80), (0x80, 0x22), (0x22, 0x22), (0x80, 0x80)] := by decide

/-- V-SQ1, V-SQ2. -/
theorem test_tick :
    (tick (p1At 262)).coord = { frame := 1, scanline := 0, clock := 0 } ∧
    (tick { p1At 312 with par := { Config.testConfiguration with tvStandard := .pal } }).coord =
      { frame := 1, scanline := 0, clock := 0 } ∧
    (tick (p1At 261)).coord = { frame := 0, scanline := 262, clock := 0 } := by decide

/-! ## Single steps -/

/-- P1, the step of line 16: reads, cycles, cells, end state. -/
theorem test_step_p1_line16 :
    answers (step (p1At 16)) (fun t =>
      t.reads.map (fun r => r.1.toNat) ==
        [0x1000, 0x1001, 0x1002, 0x1801, 0x1800, 0x1802, 0x1803, 0x2000, 0x2001, 0x2002, 0x2003, 0x1805, 0x1003, 0x1004,
          0x1005] &&
      t.out.dmaConsumed == 44 && t.zone.origin == 0x1003 && t.zone.dlLo == 0x20 && t.dl.origin == 0x1804 &&
      t.buf0[9]? == some .unset && t.buf0[10]? == some (.set 2 (.ix 3)) && t.buf0[14]? == some (.set 2 (.ix 1)) &&
      t.buf0[21]? == some (.set 2 (.ix 2)) && t.buf0[22]? == some .unset && t.writeSel && t.coord.scanline == 17) =
      true := by decide

/-- V-FA1, V-FA3: a step that meets a failing read is rolled back. -/
theorem test_step_bus_errors :
    answers (step { p1At 16 with busFaults := [0x1802] }) (fun t =>
      t == { p1At 16 with busFaults := [0x1802], fault := some ⟨.busError, 0x1802, .headerRead⟩ }) = true ∧
    answers (step { p1At 16 with busFaults := [0x1003] }) (fun t =>
      t == { p1At 16 with busFaults := [0x1003], fault := some ⟨.busError, 0x1003, .zoneRead⟩ }) = true := by decide +kernel

/-- V-RG12's shape: a scanline step, then a host access, then the next scanline step (R50). -/
theorem test_step_between_scanlines :
    answers (step (letStep (p1At 10))) (fun t =>
      t.coord.scanline == 11 && t.inbox == [.port 0x1C .read] && answers (step t) (fun u =>
        u.coord.scanline == 11 && u.inbox == [] && answers (step u) (fun v => v.coord.scanline == 12))) = true := by
  decide +kernel

/-- V-RS-R: the first step after a reset. -/
theorem test_step_after_reset :
    answers (step base) (fun t =>
      t.out.dmaConsumed == 0 && !t.out.dli && t.coord.scanline == 1 && t.reads == [] &&
        (t.out.line.map fun l => l.pairs.all (fun p => p == (0x80, 0x80)) && l.pairs.length == 160) == some true) =
      true := by decide +kernel

/-! ## Witnesses: encoding -/

theorem witness_DecodeOfEncodeIsTheInstruction :
    (Instr.dlShort 0 0 1 0 0).wellFormed = true ∧ (Instr.dlShort 0xFF 7 31 0xFF 0xFF).wellFormed = true := by decide

theorem witness_EncodeOfDecodeIsTheBytes :
    decode .displayList [0x77, 0xA0, 0x01] = .ok (.dlEnd true true, [0x01]) ∧
    decode .displayList [0x34, 0x01, 0x12, 0x56] = .ok (.dlShort 0x34 0 1 0x12 0x56, []) ∧
    decode .port [0x1F, 0, 0xFF] = .ok (.regPaletteC3 7 (.write 0xFF), []) := by decide

theorem witness_ShortHeadersEncodeWidths1To31 :
    (bitsOf 0xA0 0 5 = 0#5 ∧ bitOf 0xA0 6 = false) ∧ (bitsOf 0xE0 0 5 = 0#5 ∧ bitOf 0xE0 6 = true) ∧
    classify 0x01 = .short ∧ classify 0x1F = .short ∧ decodeWidth (bitsOf 0x01 0 5) = 31 ∧
    decodeWidth (bitsOf 0x1F 0 5) = 1 ∧ decodeWidth 0 = 32 := by decide

theorem witness_AssembledLinesDecode :
    (1 ≤ 1 ∧ 1 ≤ 31 ∧ decode .displayList (AsmLine.emit (.hdr4 0x2000 2 1 10)) = .ok (.dlShort 0 2 31 0x20 10, [])) ∧
    (1 ≤ 31 ∧ 31 ≤ 31 ∧ decode .displayList (AsmLine.emit (.hdr4 0x2000 2 31 10)) = .ok (.dlShort 0 2 1 0x20 10, [])) ∧
    (1 ≤ 32 ∧ 32 ≤ 32 ∧
      decode .displayList (AsmLine.emit (.hdr5 0x2000 true true 2 32 10)) = .ok (.dlLong 0 true true 0x20 2 0 10, [])) := by
  decide

/-! ## Witnesses: instructions -/

/-- The second byte of an object of write mode 0 at position 254: its cells wrap (R115). -/
theorem witness_GraphicsBytesWriteTheirCells :
    (2#8 : Pos) = 254#8 + BitVec.ofNat 8 (4 * 1) ∧ (0#8 : Pos) = 254#8 + BitVec.ofNat 8 (2 * 1) := by decide

/-- Targets 159 and 160, and both kinds of colour. -/
theorem witness_PutCellWritesOneCellOrNone :
    159 = ((159#8 : Pos).toNat + 256 - base.par.pipelineLength % 256) % 256 ∧
    160 = ((160#8 : Pos).toNat + 256 - base.par.pipelineLength % 256) % 256 ∧
    cell (putCell 159 3 2 base) 159 = .set 3 (.ix 2) ∧ putCell 160 3 2 base = base ∧ putCell 159 3 0 base = base ∧
    base.reg.ctrl.kangaroo = false ∧ (kangarooOn base).reg.ctrl.kangaroo = true ∧
    cell (putCell 159 3 0 (kangarooOn base)) 159 = .set 3 .bg := by decide +kernel

/-- A state that draws characters: `charWidth` as given, `budget` as given, holey or not. -/
def characters (wide holes : Bool) (budget : Nat) : State :=
  { base with
    budget := budget,
    zone := { base.zone with hole16 := holes },
    reg := { bank with chbase := if holes then 0x90 else 0x50, ctrl := { bank.ctrl with charWidth := !wide } } }

/-- Each clause with the budget at its lowest. -/
theorem witness_CharactersAreDrawn :
    (0x9002 = BitVec.ofNat 16 (256 * (0x90#8 : Byte).toNat + (2#8 : Byte).toNat + 256 * (0#4 : BitVec 4).toNat)) ∧
    (holey (characters true true 3) 0x9002 = true ∧ (characters true true 3).par.cost.graphicsHoley ≤ 3) ∧
    (holey (characters false false 6) 0x5002 = false ∧ (characters false false 6).reg.ctrl.charWidth = true ∧
      (characters false false 6).par.cost.graphicsIndirect ≤ 6 ∧
      busByte (characters false false 6) 0x5002 = some 0) ∧
    (holey (characters true false 9) 0x5002 = false ∧ (characters true false 9).reg.ctrl.charWidth = false ∧
      (characters true false 9).par.cost.graphicsIndirectWide ≤ 9 ∧ busByte (characters true false 9) 0x5002 = some 0 ∧
      busByte (characters true false 9) 0x5003 = some 0) ∧
    (characters true true 3).exhausted = false := by decide

theorem witness_CharactersAreTruncatedOrFault :
    (characters true false 8).exhausted = false ∧
    8 < eventCost (characters true false 8) (characterKind (characters true false 8))
      (holey (characters true false 8) (characterBase (characters true false 8) 2)) ∧
    (eventCost (characters true false 9) (characterKind (characters true false 9)) false ≤ 9 ∧
      characterBase (characters true false 9) 2 = 0x5002 ∧ holey (characters true false 9) 0x5002 = false ∧
      busByte { characters true false 9 with busFaults := [0x5002] } 0x5002 = none) ∧
    (busByte { characters true false 9 with busFaults := [0x5003] } 0x5002 = some 0 ∧
      busByte { characters true false 9 with busFaults := [0x5003] } 0x5003 = none) ∧
    ({ characters true false 9 with exhausted := true } : State).exhausted = true := by decide

theorem witness_PaletteWritesSetOneByte : (0#3 : BitVec 3) ≠ 7#3 := by decide

theorem witness_PortReadsReturnTheirByte :
    (0x1C#5 : BitVec 5) = 0x04#5 ∨ (0x1C#5 : BitVec 5) = 0x0C#5 ∨ (0x1C#5 : BitVec 5) = 0x10#5 ∨
      (0x1C#5 : BitVec 5) = 0x14#5 ∨ (0x1C#5 : BitVec 5) = 0x18#5 ∨ (0x1C#5 : BitVec 5) = 0x1C#5 := by decide

theorem witness_InstructionsKeepWhatIsNotTheirs :
    (∃ t, exec (.regWsync (.write 1)) base = .next t ∧ (Instr.regWsync (.write 1)).stream = .port) ∧
    (∃ t, exec (.charptr 2) base = .next t ∧ (Instr.charptr 2).stream ≠ .port) :=
  ⟨⟨_, rfl, rfl⟩, ⟨_, rfl, by decide⟩⟩

theorem witness_OnlyLongHeadersWriteTheWriteMode :
    (∃ t, exec (.dlLong 0 true false 0x40 5 0x1E 0x14) base = .next t) ∧
    ((∀ lo wm ind hi pal wraw hpos, Instr.dlShort 0 1 31 0x40 48 ≠ .dlLong lo wm ind hi pal wraw hpos) ∧
      ∃ t, exec (.dlShort 0 1 31 0x40 48) (drawing true 0 0) = .next t) ∧
    (HostMove.memWrite 0x1000 1 ≠ .reset ∧ HostMove.memWrite 0x1000 1 ≠ .scanline ∧ ∃ t, step { base with inbox := [.memWrite 0x1000 1] } = .next t) :=
  ⟨⟨_, rfl⟩, ⟨by intros; simp, ⟨_, rfl⟩⟩, by decide, by decide, ⟨_, rfl⟩⟩

/-- A step that runs a whole line, and one that ends in a bus error. -/
theorem witness_ScanlineStepsNeverWriteMemory :
    (∃ t, step (p1At 16) = .next t ∧ (t.fault == none) = true) ∧
    (∃ t, step { p1At 16 with busFaults := [0x1802] } = .next t ∧ (t.fault != none) = true) ∧ (p1At 16).blockTurn :=
  ⟨answers_next (by decide +kernel), answers_next (by decide +kernel), .inl rfl⟩

theorem witness_OnlyTheOwnersChangeTheirState :
    (p1At 16).blockTurn ∧ (∃ t, step (p1At 16) = .next t ∧ (t.fault == none) = true) ∧
    ({ base with inbox := [HostMove.busFail 0xFFFF] } : State).inbox = HostMove.busFail 0xFFFF :: [] ∧
    HostMove.busFail 0xFFFF ≠ .reset ∧ HostMove.busFail 0xFFFF ≠ .scanline :=
  ⟨.inl rfl, answers_next (by decide +kernel), rfl, by decide, by decide⟩

/-! ## Witnesses: fetching -/

theorem witness_StepRunsTheWaitingPortAccess :
    ({ base with inbox := [.port 0x1C .read, .reset] } : State).inbox = .port 0x1C .read :: [.reset] := rfl

/-- P1's header at 0x1800, its zone record at 0x1000, a graphics byte and a character index. -/
theorem witness_WalkersRunTheDecodedInstruction :
    ([0x1800, 0x1801, 0x1802, 0x1803, 0x1804].map
        (busByte { p1At 16 with dl := { base.dl with origin := 0x1800 } }) =
        [some 0x00, some 0x5C, some 0x20, some 0x0A, some 0x00] ∧
      decode .displayList [0x00, 0x5C, 0x20, 0x0A, 0x00] = .ok (.dlShort 0x00 2 0x1C 0x20 0x0A, [0x00])) ∧
    ([0x1003, 0x1004, 0x1005].map (busByte { p1At 16 with zone := { base.zone with origin := 0x1003 } }) =
        [some 0x00, some 0x18, some 0x20] ∧
      decode .zoneList [0x00, 0x18, 0x20] = .ok (.zone false false false false 0 0x18 0x20, [])) ∧
    (({ p1At 16 with budget := 3 } : State).exhausted = false ∧ (p1At 16).par.cost.graphicsDirect ≤ 3 ∧
      busByte { p1At 16 with budget := 3 } 0x2000 = some 0xFF ∧
      decode (.graphics ({ p1At 16 with budget := 3 } : State).writeMode) [0xFF] = .ok (.gfxWm0 3 3 3 3, [])) ∧
    (({ p1At 16 with budget := 2 } : State).budget < (p1At 16).par.cost.graphicsDirect ∧
      busByte { p1At 16 with budget := 3, busFaults := [0x2000] } 0x2000 = none) ∧
    (busByte (p1At 16) 0x2001 = some 0x55 ∧ decode .characters [0x55] = .ok (.charptr 0x55, [])) := by decide

/-- On the zone's last line and on another. -/
theorem witness_StepRunsTheFirstHeaderOfTheLine :
    ([0, 5].all fun r =>
      (inZone r).inbox == [] && (inZone r).fault == none && headerCostsPositive (inZone r).par &&
      (inZone r).coord.scanline != (inZone r).par.firstDmaLine && dmaRuns (inZone r) &&
      (lineCharged (inZone r).afterTurn).exhausted == false && 0x1800 == displayListStart (inZone r) &&
      [0x1800, 0x1801, 0x1802, 0x1803, 0x1804].map (busByte (inZone r)) ==
        [some 0x00, some 0x5C, some 0x20, some 0x0A, some 0x00]) = true ∧
    decode .displayList [0x00, 0x5C, 0x20, 0x0A, 0x00] = .ok (.dlShort 0x00 2 0x1C 0x20 0x0A, [0x00]) := by decide

/-! ## Witnesses: zone list and display list -/

/-- V-ZR6: a record at 0xFFFE wraps; each of its reads failing. -/
theorem witness_ReadZoneRecordLoadsOrFaults :
    let s : State := { p1At 16 with zone := { base.zone with origin := 0xFFFE } }
    s.fault = none ∧ [0xFFFE, 0xFFFE + 1, 0xFFFE + 2].map (busByte s) = [some 0, some 0, some 0] ∧
    busByte { s with busFaults := [0xFFFE] } 0xFFFE = none ∧
    (busByte { s with busFaults := [0xFFFF] } 0xFFFE ≠ none ∧ busByte { s with busFaults := [0xFFFF] } (0xFFFE + 1) = none) ∧
    (busByte { s with busFaults := [0] } 0xFFFE ≠ none ∧ busByte { s with busFaults := [0] } (0xFFFE + 1) ≠ none ∧
      busByte { s with busFaults := [0] } (0xFFFE + 2) = none) := by decide

theorem witness_AdvanceIfExpiredLaw :
    (inZone 1).zone.remaining ≠ 0 ∧ (inZone 15).zone.remaining ≠ 0 ∧ (inZone 0).zone.remaining = 0 := by decide

/-- A zone just loaded, of height 0, 5 and 15. -/
theorem witness_ZonesLastHeightPlusOneCalls :
    ([0, 5, 15].all fun h =>
      let s : State := { inZone 0 with zone := { (inZone 0).zone with height := h, remaining := h } }
      s.fault == none && s.zone.remaining == s.zone.height && h.toNat ≤ s.zone.height.toNat &&
        [s.zone.origin + 3, s.zone.origin + 4, s.zone.origin + 5].map (busByte s) == [some 0x00, some 0x18, some 0x20]) =
      true := by decide

/-- A header with byte 1 as given, at 0xFFFE (V-HD12): it wraps. -/
def headerAt (m : Byte) : State :=
  { base with mem := [(0xFFFF, m)], dl := { base.dl with origin := 0xFFFE, indirect := true } }

theorem witness_DecodeHeaderOfAnEndSentinel :
    (headerAt 0x20).fault = none ∧
    [0x20, 0x80, 0xA0].map (fun m => busByte (headerAt m) ((headerAt m).dl.origin + 1)) =
      [some 0x20, some 0x80, some 0xA0] ∧
    busByte base (base.dl.origin + 1) = some 0x00 := by decide

theorem witness_DecodeHeaderOfALongHeader :
    ([0x40#8, 0xE0#8].all fun m =>
      (headerAt m).fault == none && m &&& 0x5F#8 == 0x40#8 && busByte (headerAt m) 0xFFFF == some m &&
        [0xFFFE, 0xFFFE + 2, 0xFFFE + 3, 0xFFFE + 4].map (busByte (headerAt m)) == [some 0, some 0, some 0, some 0]) =
      true := by decide

theorem witness_DecodeHeaderOfAShortHeader :
    ([0x01#8, 0x41#8, 0xFF#8].all fun m =>
      (headerAt m).fault == none && m &&& 0x5F#8 != 0x00#8 && m &&& 0x5F#8 != 0x40#8 &&
        busByte (headerAt m) 0xFFFF == some m &&
        [0xFFFE, 0xFFFE + 2, 0xFFFE + 3].map (busByte (headerAt m)) == [some 0, some 0, some 0]) = true := by decide

/-- Each read of a long header failing. -/
theorem witness_DecodeHeaderFaultsAtTheFirstFailingRead :
    busByte { headerAt 0x40 with busFaults := [0xFFFF] } (0xFFFE + 1) = none ∧
    ([0xFFFE, 0, 1, 2].all fun x =>
      busByte { headerAt 0x40 with busFaults := [x] } (0xFFFE + 1) == some 0x40 &&
      ([0xFFFE, 0xFFFE + 2, 0xFFFE + 3, 0xFFFE + 4].all fun a =>
        (busByte { headerAt 0x40 with busFaults := [x] } a == none) == (a.toNat == x))) = true ∧
    classify 0x40 ≠ .endOfList ∧ classify 0x40 = .long := by decide

/-- An end position, and a long header with a budget of 9 and of 10, its cost. -/
theorem witness_DisplayListLoopPasses :
    let s : State := { base with dl := { base.dl with isLong := true } }
    s.exhausted = false ∧ 10 = (if s.dl.isLong = true then s.par.cost.headerLong else s.par.cost.headerShort) ∧
    s.dl.isEnd = false ∧ ({ s with budget := 9 } : State).budget < 10 ∧ 10 ≤ ({ s with budget := 10 } : State).budget ∧
    ({ s with dl := { s.dl with isEnd := true } } : State).dl.isEnd = true := by decide

/-- `base` under a configuration with a header cost of 0. -/
def freeHeaders : State :=
  { base with
    par := { Config.testConfiguration with cost := { Config.testConfiguration.cost with headerShort := 0 } } }

theorem witness_DisplayListWalkTerminates :
    (1 ≤ base.par.cost.headerShort ∧ 1 ≤ base.par.cost.headerLong ∧ base.budget < 401) ∧ freeHeaders.inbox = [] ∧
    freeHeaders.fault = none ∧ (freeHeaders.par.cost.headerShort = 0 ∨ freeHeaders.par.cost.headerLong = 0) := by decide

/-! ## Witnesses: accountant, objects, resolver -/

/-- A budget just short of the cost, and just enough. -/
theorem witness_ChargeLaw :
    3 = (if true = true then base.par.cost.graphicsHoley else costOf base.par .headerLong) ∧
    10 = (if false = true then base.par.cost.graphicsHoley else costOf base.par .headerLong) ∧
    ({ base with exhausted := true } : State).exhausted = true ∧ base.exhausted = false ∧
    10 ≤ ({ base with budget := 10 } : State).budget ∧ ({ base with budget := 9 } : State).budget < 10 := by decide

/-- V-HO4: a direct object at 0x9000 in a `hole16` zone. -/
def holeyObject : State :=
  { base with dl := { base.dl with hi := 0x90, width := 32 }, zone := { base.zone with hole16 := true } }

theorem witness_HoleyObjectsReadAndWriteNothing :
    holeyObject.dl.indirect = false ∧ holeyObject.exhausted = false ∧ holey holeyObject (directBase holeyObject) = true ∧
    ({ holeyObject with budget := 3 } : State).par.cost.graphicsHoley ≤ 3 ∧
    2 < ({ holeyObject with budget := 2 } : State).par.cost.graphicsHoley := by decide

/-- P1's object of width 4 with cycles for all of it (12) and for three bytes (11). -/
theorem witness_ObjectsReadFromTheirPointers :
    ({ base with dl := { base.dl with indirect := true } } : State).dl.indirect = true ∧
    ([12, 11].all fun b =>
      let s : State := { p1At 16 with budget := b, dl := { base.dl with hi := 0x20, width := 4 } }
      s.fault == none && s.exhausted == false && s.dl.indirect == false &&
        0x2000 == BitVec.ofNat 16 (256 * s.dl.hi.toNat + s.dl.lo.toNat + 256 * s.zone.remaining.toNat) &&
        holey s 0x2000 == false &&
        (match drawObject s with
        | .ok t => t.gfxIndex == (if b = 12 then 4 else 3) && t.exhausted == (b == 11)
        | .error _ => false)) = true := by decide +kernel

theorem witness_CellsResolveByTheReadMode :
    bank.ctrl.readMode = 0#2 ∧ ({ bank with ctrl := { bank.ctrl with readMode := 3 } } : Regs).ctrl.readMode = 3#2 := by
  decide

theorem witness_ScanlineOutputIsTheReadBuffer :
    (p1At 16).blockTurn ∧ (p1At 16).fault = none ∧ ∃ t, step (p1At 16) = .next t ∧ (t.fault == none) = true :=
  ⟨.inl rfl, rfl, answers_next (by decide +kernel)⟩

/-- A line whose successor's registers the host has changed. -/
theorem witness_LinesAreOutputOneStepLater :
    ∃ t t' u, (letStep (p1At 10)).blockTurn ∧ (letStep (p1At 10)).fault = none ∧ step (letStep (p1At 10)) = .next t ∧ t.fault = none ∧
      t'.buf0 = t.buf0 ∧ t'.buf1 = t.buf1 ∧ t'.writeSel = t.writeSel ∧ t'.blockTurn ∧ t'.fault = none ∧
      step t' = .next u ∧ u.fault = none := by
  refine ⟨_, { endLine (lineStart (p1At 10)) with reg := { bank with background := 0x44 } }, _, .inr ⟨_, rfl⟩, rfl, rfl, rfl,
    rfl, rfl, rfl, .inl rfl, rfl, rfl, rfl⟩

/-! ## Witnesses: the scanline step -/

/-- The lines beside the window, DMA off, and no zone in force. -/
theorem witness_LinesWithoutDmaReadNothing :
    ([15, 259].all fun n =>
      (p1At n).inbox == [] && (p1At n).fault == none && headerCostsPositive (p1At n).par &&
        (p1At n).coord.scanline != (p1At n).par.firstDmaLine &&
        ((p1At n).coord.scanline < (p1At n).par.firstDmaLine || (p1At n).par.lastDmaLine < (p1At n).coord.scanline)) =
      true ∧
    ({ inZone 5 with reg := { bank with ctrl := decodeCtrl 0x60 } } : State).reg.ctrl.dmaLevel ≠ 2#2 ∧
    ((p1At 17).zoneValid = false ∧ (p1At 17).coord.scanline ≠ (p1At 17).par.firstDmaLine) := by decide

/-- V-SQ4: line 16 with DMA off. -/
def dmaOff : State := { p1At 16 with reg := { bank with ctrl := decodeCtrl 0x60 } }

/-- Line 16 with DMA off; line 16 of P1 with a bus that answers and one that fails. -/
theorem witness_FrameStartLaw :
    (dmaOff.inbox = [] ∧ dmaOff.fault = none ∧ headerCostsPositive dmaOff.par = true ∧
      dmaOff.coord.scanline = dmaOff.par.firstDmaLine ∧ dmaOff.reg.ctrl.dmaLevel ≠ 2#2) ∧
    ((p1At 16).coord.scanline = (p1At 16).par.firstDmaLine ∧ (p1At 16).reg.ctrl.dmaLevel = 2#2) ∧
    (∃ t, beginFrame (p1At 16) = .ok t) ∧
    (∃ h, beginFrame { p1At 16 with busFaults := [0x1001] } = .error h) :=
  ⟨by decide, by decide, ⟨_, rfl⟩, ⟨_, rfl⟩⟩

/-- Zones on their last line and on others, and the frame's first DMA line. -/
theorem witness_EveryDmaLineCountsTheZoneDown :
    ([inZone 0, inZone 1, inZone 15, p1At 16].all fun s =>
      s.inbox == [] && s.fault == none && answers (step s) (fun t => t.fault == none) &&
        (match frameStart (lineStart s.afterTurn) with
        | .ok u => dmaRuns u && (s.coord.scanline == 16) == (s.coord.scanline == s.par.firstDmaLine)
        | .error _ => false)) = true ∧
    (p1At 16).reg.ctrl.dmaLevel = 2#2 := by decide +kernel

/-- A zone's last line before a record with `dli` 1 (P3) and before one without, and the frame's first DMA line with
`DLI_ON_FIRST_ZONE`; with cycles for the overhead, and, as in P3, without. -/
theorem witness_DliIsRaisedOnTheLastLineBefore :
    ([p1Memory, (p1Memory.write 0x1003 0x80)].all fun m =>
      let s : State := { inZone 0 with mem := m }
      s.inbox == [] && s.fault == none && s.coord.scanline != s.par.firstDmaLine &&
        answers (step s) (fun t => t.fault == none && t.out.dli == (m.read 0x1003 == 0x80))) = true ∧
    ([(400, 49), (45, 45), (30, 30)].all fun c =>
      let s : State :=
        { p1At 16 with
          mem := p1Memory.write 0x1003 0x80
          par := { Config.testConfiguration with dmaMaxCycles := c.1 } }
      s.inbox == [] && s.fault == none && s.coord.scanline == s.par.firstDmaLine &&
        answers (step s) (fun t => t.fault == none && t.out.dli && t.out.dmaConsumed == c.2)) = true := by
  decide +kernel

theorem witness_RaiseDliLaw :
    ({ base with exhausted := true } : State).exhausted = true ∧ base.exhausted = false ∧
    base.par.cost.interruptOverhead ≤ ({ base with budget := 5 } : State).budget ∧
    ({ base with budget := 4 } : State).budget < base.par.cost.interruptOverhead := by decide

/-- With 400 cycles, and with 30, which the line runs out of. -/
theorem witness_DmaConsumedIsTheBudgetSpent :
    ([400, 30].all fun c =>
      let s : State := { p1At 16 with par := { Config.testConfiguration with dmaMaxCycles := c } }
      s.inbox == [] && s.fault == none &&
        answers (step s) (fun t => t.fault == none && t.exhausted == (c == 30))) = true := by decide +kernel

theorem witness_TickAndSwapLaw :
    263 = (match (p1At 262).par.tvStandard with | .ntsc => 263 | .pal => 313) ∧
    (p1At 262).coord.scanline + 1 = 263 ∧ (p1At 261).coord.scanline + 1 ≠ 263 := by decide

/-! ## Witnesses: faults -/

theorem witness_BusErrorsRollTheStepBack :
    let s : State := letStep { p1At 16 with busFaults := [0x2003] }
    s.blockTurn ∧ s.fault = none ∧ ∃ t, step s = .next t ∧ (t.fault != none) = true :=
  ⟨.inr ⟨_, rfl⟩, rfl, answers_next (by decide +kernel)⟩

theorem witness_RecordedFaultsNameAFailingRead :
    let s : State := { p1At 16 with busFaults := [0x2003] }
    s.blockTurn ∧ s.fault = none ∧
      ∃ t, step s = .next t ∧ (t.fault == some ⟨.busError, 0x2003, .graphicsRead⟩) = true :=
  ⟨.inl rfl, rfl, answers_next (by decide +kernel)⟩

/-- P1 stuck at 0x1802, with each kind of waiting moves. -/
def stuck (inbox : List HostMove) : State :=
  { p1At 16 with fault := some ⟨.busError, 0x1802, .headerRead⟩, inbox := inbox }

theorem witness_FaultsAreStickyUntilReset :
    (stuck []).fault = some ⟨.busError, 0x1802, .headerRead⟩ ∧ (stuck []).blockTurn ∧ (stuck [.scanline]).blockTurn ∧
    (stuck [.port 0x1C .read]).inbox = .port 0x1C .read :: [] ∧
    (stuck [.busAnswer 0x1802]).inbox = .busAnswer 0x1802 :: [] ∧ HostMove.busAnswer 0x1802 ≠ .reset ∧
    HostMove.busAnswer 0x1802 ≠ .scanline ∧ (stuck [.reset]).inbox = .reset :: [] :=
  ⟨rfl, .inl rfl, .inr ⟨_, rfl⟩, rfl, rfl, by decide, by decide, rfl⟩

/-! ## Witnesses: host moves, reset, invariant, noninterference -/

theorem witness_HostMovesFallBetweenScanlineSteps :
    (letStep base).blockTurn ∧
    (∀ m ∈ [HostMove.memWrite 0x1000 1, .reset], m ≠ .scanline) ∧
    ({ base with inbox := [.memWrite 0x1000 1, .reset, .scanline, .busFail 0] } : State).inbox =
      [.memWrite 0x1000 1, .reset] ++ .scanline :: [.busFail 0] := ⟨.inr ⟨_, rfl⟩, by decide, rfl⟩

/-- Writes of a byte and of the byte an unlisted address reads as, at the top of the address space. -/
theorem witness_HostWritesAreSeen :
    ([1#8, 0#8].all fun v =>
      let s : State := { p1At 16 with inbox := [.memWrite 0xFFFF v] }
      s.inbox == .memWrite 0xFFFF v :: [] && s.mem.wf && !s.busFaults.contains 0xFFFF) = true ∧
    (0xFFFE#16 : Addr) ≠ 0xFFFF#16 := by decide

/-- `base` after a WSYNC write. -/
def pulsed : State := { base with out := { base.out with wsync := true } }

theorem witness_WsyncIsAPulse :
    ({ base with inbox := [.port 0x04 (.write 9)] } : State).inbox = .port 0x04 (.write 9) :: [] ∧
    pulsed.blockTurn ∧ pulsed.fault = none ∧ ∃ t, step pulsed = .next t ∧ (t.fault == none && !t.out.wsync) = true :=
  ⟨rfl, .inl rfl, rfl, answers_next (by decide +kernel)⟩

theorem witness_ResetLeavesEveryFieldAtItsValue : (stuck [.reset, .memWrite 0 1]).inbox = .reset :: [.memWrite 0 1] := rfl

/-- A stuck block with memory, a failing address and the block's turn after the reset. -/
theorem witness_FirstStepAfterReset :
    let s : State := letStep { stuck [] with busFaults := [0x1802] }
    s.blockTurn ∧ headerCostsPositive s.par = true ∧ s.par.firstDmaLine ≠ 0 := ⟨.inr ⟨_, rfl⟩, by decide, by decide⟩

/-- A state that is not reset's meets the invariant, and steps. -/
theorem witness_EveryStepKeepsTheInvariant :
    (inZone 3).Inv ∧ ∃ t, step (inZone 3) = .next t ∧ (t.fault == none) = true :=
  ⟨⟨by decide, by decide, by decide, by decide, by decide, by decide, by decide, by decide, by decide,
    List.length_replicate, List.length_replicate, (by intro l h; cases h), by decide⟩, answers_next (by decide +kernel)⟩

theorem witness_OffsetHasNoEffect : (letStep (inZone 3)).blockTurn := .inr ⟨_, rfl⟩

theorem witness_DisplayPointersAreReadAtTheFrameStartOnly :
    (inZone 3).blockTurn ∧ (inZone 3).coord.scanline ≠ (inZone 3).par.firstDmaLine := ⟨.inl rfl, by decide⟩

end Sys2Proof.Tests
end

