-- ==== Sys2Proof/Proofs/Memory.lean ====
section
/-! The bus under a scanline step (R45): a step of the block keeps the memory and the failing addresses. -/
namespace Sys2Proof.Machine

@[simp] theorem outputLine_mem (s : State) : (outputLine s).mem = s.mem := rfl
@[simp] theorem outputLine_busFaults (s : State) : (outputLine s).busFaults = s.busFaults := rfl
@[simp] theorem endLine_mem (s : State) : (endLine s).mem = s.mem := by rw [endLine_eq]
@[simp] theorem endLine_busFaults (s : State) : (endLine s).busFaults = s.busFaults := by rw [endLine_eq]

/-- The output and the end of a line are framed by their own lemmas, the DMA between them by `DmaFrame`. -/
theorem scanline_keeps_bus {s t : State} (h : scanline s = .ok t) : t.mem = s.mem ∧ t.busFaults = s.busFaults := by
  obtain ⟨u, dma, rfl⟩ := scanline_ok h
  constructor
  · simpa using dma.mem
  · simpa using dma.busFaults

/-- A line that ends in a bus error is rolled back (R158), so it too keeps the bus. -/
theorem stepScanline_keeps_bus {s t : State} (h : stepScanline s = .next t) :
    t.mem = s.mem ∧ t.busFaults = s.busFaults := by
  obtain ⟨-, -, completed | ⟨f, -, rfl⟩⟩ := stepScanline_next.mp h
  · exact scanline_keeps_bus completed
  · exact ⟨takeBusError_mem s f, takeBusError_busFaults s f⟩

/-- Settles O20: completed and faulting scanline steps keep what the bus answers from. -/
theorem scanlineStepsNeverWriteMemory : Obligations.ScanlineStepsNeverWriteMemory := by
  intro s t turn h
  rw [step_blockTurn turn] at h
  obtain ⟨mem, busFaults⟩ := stepScanline_keeps_bus h
  exact ⟨mem, busByte_congr mem busFaults⟩

end Sys2Proof.Machine
end

