-- ==== Sys2Proof/Proofs/HeaderModes.lean ====
section
/-! The header class (R58) against the raw width (R62, R63): a header is short exactly where the low five bits of its byte 1
are not all 0. -/
namespace Sys2Proof.Machine

theorem isEndMode_iff {m : Byte} : isEndMode m = true ↔ m &&& 0x5F#8 = 0x00#8 := beq_iff_eq

theorem isLongMode_iff {m : Byte} : isLongMode m = true ↔ m &&& 0x5F#8 = 0x40#8 := beq_iff_eq

theorem isLongMode_eq_false_of_isEndMode {m : Byte} (isEnd : isEndMode m = true) : isLongMode m = false := by
  rw [isLongMode, isEndMode_iff.mp isEnd]; rfl

theorem classify_eq_endOfList_iff {m : Byte} : classify m = .endOfList ↔ m &&& 0x5F#8 = 0x00#8 := by
  rw [← isEndMode_iff]
  cases isEnd : isEndMode m
  · cases isLong : isLongMode m <;> simp [classify, isEnd, isLong]
  · simp [classify, isEnd]

theorem classify_eq_long_iff {m : Byte} : classify m = .long ↔ m &&& 0x5F#8 = 0x40#8 := by
  rw [← isLongMode_iff]
  cases isEnd : isEndMode m
  · cases isLong : isLongMode m <;> simp [classify, isEnd, isLong]
  · simp [classify, isEnd, isLongMode_eq_false_of_isEndMode isEnd]

theorem classify_eq_short_iff {m : Byte} :
    classify m = .short ↔ m &&& 0x5F#8 ≠ 0x00#8 ∧ m &&& 0x5F#8 ≠ 0x40#8 := by
  rw [ne_eq, ne_eq, ← classify_eq_endOfList_iff, ← classify_eq_long_iff]
  cases classify m <;> decide

/-- The bits R58 tests are bit 6 and the raw width. -/
theorem classMask_eq (m : Byte) :
    m &&& 0x5F#8 = (BitVec.ofBool (bitOf m 6)).setWidth 8 <<< 6 ||| (bitsOf m 0 5).setWidth 8 := by
  revert m; decide

/-- With raw width 0, bit 6 alone chooses between the two masked values of R58. -/
theorem classMask_of_rawWidth_zero {m : Byte} (raw : bitsOf m 0 5 = 0#5) :
    m &&& 0x5F#8 = if bitOf m 6 then 0x40#8 else 0x00#8 := by
  rw [classMask_eq, raw]
  cases bitOf m 6 <;> rfl

theorem rawWidth_classMask (m : Byte) : bitsOf (m &&& 0x5F#8) 0 5 = bitsOf m 0 5 := by
  revert m; decide

/-- R63 in both directions: each of the two masked values of the other classes has raw width 0. -/
theorem classify_eq_short_iff_rawWidth_ne_zero {m : Byte} : classify m = .short ↔ bitsOf m 0 5 ≠ 0#5 := by
  rw [classify_eq_short_iff]
  constructor
  · rintro ⟨notEnd, notLong⟩ raw
    have mask := classMask_of_rawWidth_zero raw
    cases bit6 : bitOf m 6
    · exact notEnd (by simpa [bit6] using mask)
    · exact notLong (by simpa [bit6] using mask)
  · intro nonzero
    rw [← rawWidth_classMask] at nonzero
    constructor <;> intro mask <;> exact nonzero (by rw [mask]; rfl)

theorem bitsOf_setWidth (w : BitVec 5) : bitsOf (w.setWidth 8) 0 5 = w := by
  apply BitVec.eq_of_toNat_eq
  simp only [bitsOf, BitVec.extractLsb'_toNat, BitVec.toNat_setWidth, Nat.shiftRight_zero]
  omega

theorem decodeWidth_le_of_ne_zero {w : BitVec 5} (nonzero : w ≠ 0#5) : decodeWidth w ≤ 31 := by
  have : w.toNat ≠ 0 := fun h => nonzero (BitVec.eq_of_toNat_eq h)
  rw [decodeWidth_eq]; omega

/-- R62 backwards: a width up to 32 is that of the raw field 32 less it, which is 0 for 32. -/
theorem decodeWidth_ofNat_sub {n : Nat} (pos : 1 ≤ n) (le : n ≤ 32) : decodeWidth (BitVec.ofNat 5 (32 - n)) = n := by
  rw [decodeWidth_eq, BitVec.toNat_ofNat]; omega

/-- The witness is the byte 1 with palette 0 and the raw width that R62 takes to `n`. -/
theorem exists_short_of_width {n : Nat} (pos : 1 ≤ n) (le : n ≤ 31) :
    ∃ m : Byte, classify m = .short ∧ decodeWidth (bitsOf m 0 5) = n := by
  have width := decodeWidth_ofNat_sub pos (by omega)
  have nonzero : BitVec.ofNat 5 (32 - n) ≠ 0#5 := by
    intro raw
    rw [raw, decodeWidth_eq, BitVec.toNat_ofNat] at width
    omega
  refine ⟨(BitVec.ofNat 5 (32 - n)).setWidth 8, ?_, by rw [bitsOf_setWidth, width]⟩
  rwa [classify_eq_short_iff_rawWidth_ne_zero, bitsOf_setWidth]

/-- Settles O5: raw width 0 makes the position an end or a long header (R63), and R62 is inverted for the rest. -/
theorem shortHeadersEncodeWidths1To31 : Obligations.ShortHeadersEncodeWidths1To31 := by
  refine ⟨decodeWidth_eq, fun m raw => ?rawZero, fun m short => ?short, fun n => exists_short_of_width,
    fun n pos le => ⟨_, decodeWidth_ofNat_sub pos le⟩⟩
  case rawZero =>
    rw [classify_eq_endOfList_iff, classify_eq_long_iff, classMask_of_rawWidth_zero raw]
    exact ⟨fun bit6 => by simp [bit6], fun bit6 => by simp [bit6]⟩
  case short =>
    have nonzero := classify_eq_short_iff_rawWidth_ne_zero.mp short
    exact ⟨nonzero, (decodeWidth_bounds _).1, decodeWidth_le_of_ne_zero nonzero⟩

end Sys2Proof.Machine
end

