-- ==== Sys2Proof/Proofs/Sequencer.lean ====
section
/-! The end of a line: `Tick` case by case (R73), and what `SwapLineBuffers` leaves unchanged (R130). -/
namespace Sys2Proof.Machine

/-- The last line of a frame. -/
theorem tick_of_lastLine {s : State} (last : s.coord.scanline + 1 = vPeriod s.par) :
    tick s = { s with coord := { frame := s.coord.frame + 1, scanline := 0, clock := 0 } } := if_pos last

/-- Every other line. -/
theorem tick_of_not_lastLine {s : State} (notLast : s.coord.scanline + 1 ≠ vPeriod s.par) :
    tick s = { s with coord := { frame := s.coord.frame, scanline := s.coord.scanline + 1, clock := 0 } } := if_neg notLast

theorem setWriteBuffer_frame (s : State) (b : LineBuffer) :
    setWriteBuffer s b = { s with buf0 := (setWriteBuffer s b).buf0, buf1 := (setWriteBuffer s b).buf1 } := by
  unfold setWriteBuffer
  split <;> rfl

theorem swapLineBuffers_frame (s : State) :
    swapLineBuffers s =
      { s with
        writeSel := !s.writeSel, buf0 := (swapLineBuffers s).buf0, buf1 := (swapLineBuffers s).buf1 } :=
  setWriteBuffer_frame { s with writeSel := !s.writeSel } clearLine

/-- Settles O48: the statement writes out `vPeriod` and `clearLine`. -/
theorem tickAndSwapLaw : Obligations.TickAndSwapLaw := by
  rintro s v rfl
  obtain ⟨filled, cleared⟩ := swapLineBuffers_buffers s
  exact ⟨tick_of_lastLine, tick_of_not_lastLine, filled, cleared, swapLineBuffers_frame s⟩

end Sys2Proof.Machine
end

