-- ==== Sys2Proof/Proofs/ZoneList.lean ====
section
/-! The zone list walker: `ReadZoneRecord` read by read (R47, R86), and the two cases of `AdvanceIfExpired` (R88). -/
namespace Sys2Proof.Machine

/-- A read after others, which are noted in `reads` alone: the bus answers as before them. -/
theorem busRead_noteReads_answers {s : State} {a : Addr} {b : Byte} (op : ReadOp) (l : List (Addr × ReadOp))
    (h : busByte s a = some b) : busRead op a { s with reads := l } = .ok (b, { s with reads := l ++ [(a, op)] }) :=
  busRead_answers h

theorem busRead_noteReads_fails {s : State} {a : Addr} (op : ReadOp) (l : List (Addr × ReadOp))
    (h : busByte s a = none) :
    busRead op a { s with reads := l } = .error (.busError { kind := .busError, addr := a, op := op }) :=
  busRead_fails h

theorem fetchZone_fails_first {s : State} (fails : busByte s s.zone.origin = none) :
    fetchZone s = .error (.busError { kind := .busError, addr := s.zone.origin, op := .zoneRead }) := by
  rw [fetchZone, busRead_fails fails]; rfl

theorem fetchZone_fails_second {s : State} {b0 : Byte} (read0 : busByte s s.zone.origin = some b0)
    (fails : busByte s (s.zone.origin + 1) = none) :
    fetchZone s = .error (.busError { kind := .busError, addr := s.zone.origin + 1, op := .zoneRead }) := by
  simp only [fetchZone, bind, Except.bind, busRead_answers read0, busRead_noteReads_fails _ _ fails]

theorem fetchZone_fails_third {s : State} {b0 b1 : Byte} (read0 : busByte s s.zone.origin = some b0)
    (read1 : busByte s (s.zone.origin + 1) = some b1) (fails : busByte s (s.zone.origin + 2) = none) :
    fetchZone s = .error (.busError { kind := .busError, addr := s.zone.origin + 2, op := .zoneRead }) := by
  simp only [fetchZone, bind, Except.bind, busRead_answers read0, busRead_noteReads_answers _ _ read1,
    busRead_noteReads_fails _ _ fails]

theorem fetchZone_answers {s : State} {b0 b1 b2 : Byte} (read0 : busByte s s.zone.origin = some b0)
    (read1 : busByte s (s.zone.origin + 1) = some b1) (read2 : busByte s (s.zone.origin + 2) = some b2) :
    fetchZone s =
      .ok
        (decodeZone b0 b1 b2,
          { s with
            reads :=
              s.reads ++
                [(s.zone.origin, .zoneRead), (s.zone.origin + 1, .zoneRead), (s.zone.origin + 2, .zoneRead)] }) := by
  simp only [fetchZone, bind, Except.bind, busRead_answers read0, busRead_noteReads_answers _ _ read1,
    busRead_noteReads_answers _ _ read2, List.append_assoc, List.cons_append, List.nil_append]

/-- A failing read ends `ReadZoneRecord` before the record is run. -/
theorem readZoneRecord_fails {s : State} {h : Halt} (fetch : fetchZone s = .error h) : readZoneRecord s = .error h := by
  rw [readZoneRecord, fetch]; rfl

/-- Once its record is read, `ReadZoneRecord` runs the decoded ZONE. -/
theorem readZoneRecord_runs {s t : State} {i : Instr} (fetch : fetchZone s = .ok (i, t)) :
    readZoneRecord s = runInstr i t := by
  rw [readZoneRecord, fetch]; rfl

/-- Settles O25: the three failing reads, then ZONE run on the three bytes; it keeps `fault`, so the run does not end. -/
theorem readZoneRecordLoadsOrFaults : Obligations.ReadZoneRecordLoadsOrFaults := by
  rintro s a noFault rfl
  refine ⟨fun fails => ?first, fun read0 fails => ?second, fun read0 read1 fails => ?third,
    fun b0 b1 b2 read0 read1 read2 => ?loads⟩
  case first => exact readZoneRecord_fails (fetchZone_fails_first fails)
  case second =>
    obtain ⟨b0, read0⟩ := Option.ne_none_iff_exists'.mp read0
    exact readZoneRecord_fails (fetchZone_fails_second read0 fails)
  case third =>
    obtain ⟨b0, read0⟩ := Option.ne_none_iff_exists'.mp read0
    obtain ⟨b1, read1⟩ := Option.ne_none_iff_exists'.mp read1
    exact readZoneRecord_fails (fetchZone_fails_third read0 read1 fails)
  case loads =>
    rw [readZoneRecord_runs (fetchZone_answers read0 read1 read2)]
    exact resume_ok.mpr ⟨rfl, noFault⟩

/-- A zone with lines left. -/
theorem advanceIfExpired_of_remaining_ne_zero {s : State} (left : s.zone.remaining ≠ 0) :
    advanceIfExpired s = .ok (false, { s with zone := { s.zone with remaining := s.zone.remaining - 1 } }) :=
  if_neg (by simpa using left)

/-- An expired zone: the answer is 1 exactly where the next record loads, and its failing read is the call's. -/
theorem advanceIfExpired_of_remaining_zero {s : State} (expired : s.zone.remaining = 0) :
    advanceIfExpired s = (readZoneRecord (atNextZone s)).map fun t => (true, t) := by
  rw [advanceIfExpired, if_pos (by simpa using expired)]
  cases readZoneRecord (atNextZone s) <;> rfl

/-- Settles O26: the statement writes out `atNextZone`. -/
theorem advanceIfExpiredLaw : Obligations.AdvanceIfExpiredLaw := fun _ =>
  ⟨advanceIfExpired_of_remaining_ne_zero, advanceIfExpired_of_remaining_zero⟩

end Sys2Proof.Machine
end

