-- ==== Sys2Proof/Proofs/Accountant.lean ====
section
/-! The accountant: `Charge` (R108), with the cost of an event written out (R105). -/
namespace Sys2Proof.Machine

theorem eventCost_eq (s : State) (kind : EventKind) (h : Bool) :
    eventCost s kind h = if h = true then s.par.cost.graphicsHoley else costOf s.par kind := by
  cases h <;> rfl

/-- Settles O35: the clauses are the three cases of a charge, which exclude each other. -/
theorem chargeLaw : Obligations.ChargeLaw := by
  rintro k h s c rfl
  rw [← eventCost_eq]
  obtain ⟨spent, charged⟩ | ⟨live, fits, charged⟩ | ⟨live, short, charged⟩ := charge_cases k h s
  · simp [charged, spent]
  · simp [charged, live, fits.not_gt]
  · simp [charged, live, short.not_ge]

end Sys2Proof.Machine
end

