-- ==== Sys2Proof/Proofs/Graphics.lean ====
section
/-! `PutCell` (R124): its target cell, and the outcome for each target, colour and kangaroo. -/
namespace Sys2Proof.Machine

/-- The subtraction of `PIPELINE_LENGTH` modulo 256, in the naturals. -/
theorem pipelineTarget_eq (p : Params) (x : Pos) :
    pipelineTarget p x = (x.toNat + 256 - p.pipelineLength % 256) % 256 := by
  rw [pipelineTarget, BitVec.toNat_sub, BitVec.toNat_ofNat]
  omega

theorem cellFor_of_ne_zero {s : State} {pal : BitVec 3} {c : BitVec 2} (coloured : c ≠ 0#2) :
    cellFor s pal c = some (.set pal (.ix c)) :=
  if_pos (by simpa using coloured)

theorem cellFor_zero (s : State) (pal : BitVec 3) :
    cellFor s pal 0#2 = if s.reg.ctrl.kangaroo then some (.set pal .bg) else none := rfl

theorem putCell_offLine {x : Pos} {pal : BitVec 3} {c : BitVec 2} {s : State}
    (offLine : Config.lineCells ≤ pipelineTarget s.par x) : putCell x pal c s = s :=
  if_pos offLine

theorem putCell_transparent {x : Pos} {pal : BitVec 3} {c : BitVec 2} {s : State}
    (transparent : cellFor s pal c = none) : putCell x pal c s = s := by
  simp only [putCell, transparent, ite_self]

theorem putCell_onLine {x : Pos} {pal : BitVec 3} {c : BitVec 2} {s : State} {e : LineEntry}
    (onLine : pipelineTarget s.par x < Config.lineCells) (drawn : cellFor s pal c = some e) :
    putCell x pal c s = setWriteBuffer s ((writeBuffer s).set (pipelineTarget s.par x) e) := by
  rw [putCell, if_neg onLine.not_ge, drawn]

theorem putCell_otherCell {x : Pos} {y : Nat} {s : State} (pal : BitVec 3) (c : BitVec 2)
    (other : y ≠ pipelineTarget s.par x) : (writeBuffer (putCell x pal c s))[y]? = (writeBuffer s)[y]? := by
  obtain unchanged | ⟨e, -, -, stored⟩ := putCell_cases x pal c s
  · rw [unchanged]
  · rw [stored, writeBuffer_setWriteBuffer, List.getElem?_set_ne other.symm]

theorem readBuffer_putCell (x : Pos) (pal : BitVec 3) (c : BitVec 2) (s : State) :
    readBuffer (putCell x pal c s) = readBuffer s := by
  rw [putCell_eq, readBuffer_setWriteBuffer]

/-- Settles O11: off the line or transparent nothing is stored; else the cell is the colour, or the sentinel for colour 0. -/
theorem putCellWritesOneCellOrNone : Obligations.PutCellWritesOneCellOrNone := by
  rintro x p c s t target
  obtain rfl : t = pipelineTarget s.par x := target.trans (pipelineTarget_eq s.par x).symm
  refine ⟨putCell_offLine, ?transparent, fun onLine coloured => putCell_onLine onLine (cellFor_of_ne_zero coloured),
    ?sentinel, fun _ => putCell_otherCell p c, readBuffer_putCell x p c s⟩
  case transparent =>
    rintro rfl noKangaroo
    exact putCell_transparent (by simp [cellFor_zero, noKangaroo])
  case sentinel =>
    rintro onLine rfl kangaroo
    exact putCell_onLine onLine (by simp [cellFor_zero, kangaroo])

end Sys2Proof.Machine
end

