-- ==== Sys2Proof/Proofs/Encoding.lean ====
section
/-! The decoder and the encoder (R56 to R72): each record's bit fields are joined to its bytes and cut out of them again, the
port's offset map (R70) covers the 32 offsets, and an assembler line (R71) is the encoding of the record it names. -/
namespace Sys2Proof.Machine

/-! ## Bit fields of a byte: cut out of joined fields, and joined again -/

/-- The flags and the height of a zone record's byte 0 (R57). -/
theorem zoneFlags_cut (dli h16 h8 ignored : Bool) (height : BitVec 4) :
    let b : Byte :=
      BitVec.ofBool dli ++ BitVec.ofBool h16 ++ BitVec.ofBool h8 ++ BitVec.ofBool ignored ++ height
    bitOf b 7 = dli ∧ bitOf b 6 = h16 ∧ bitOf b 5 = h8 ∧ bitOf b 4 = ignored ∧ bitsOf b 0 4 = height := by
  revert dli h16 h8 ignored height; decide

theorem zoneFlags_join (b : Byte) :
    BitVec.ofBool (bitOf b 7) ++ BitVec.ofBool (bitOf b 6) ++ BitVec.ofBool (bitOf b 5) ++ BitVec.ofBool (bitOf b 4) ++
      bitsOf b 0 4 = b := by
  revert b; decide

/-- Palette and raw width share a byte (R60, R61). -/
theorem palWidth_cut (pal : BitVec 3) (wraw : BitVec 5) :
    bitsOf (pal ++ wraw) 5 3 = pal ∧ bitsOf (pal ++ wraw) 0 5 = wraw :=
  ⟨BitVec.extractLsb'_append_eq_left, BitVec.extractLsb'_append_eq_right⟩

theorem palWidth_join (b : Byte) : bitsOf b 5 3 ++ bitsOf b 0 5 = b := by
  revert b; decide

/-- Byte 1 of an end position (`long` 0) or a long header (`long` 1): bits 7 and 5 are free, the others its class (R58). -/
theorem modeByte_cut (i7 i5 : Bool) (long : BitVec 1) :
    let m : Byte := BitVec.ofBool i7 ++ long ++ BitVec.ofBool i5 ++ 0#5
    bitOf m 7 = i7 ∧ bitOf m 5 = i5 ∧ m &&& 0x5F#8 = if long = 1#1 then 0x40#8 else 0x00#8 := by
  revert i7 i5 long; decide

theorem endMode_join {m : Byte} (isEnd : m &&& 0x5F#8 = 0x00#8) :
    BitVec.ofBool (bitOf m 7) ++ 0#1 ++ BitVec.ofBool (bitOf m 5) ++ 0#5 = m := by
  revert m; decide

theorem longMode_join {m : Byte} (isLong : m &&& 0x5F#8 = 0x40#8) :
    BitVec.ofBool (bitOf m 7) ++ 1#1 ++ BitVec.ofBool (bitOf m 5) ++ 0#5 = m := by
  revert m; decide

/-- The four two-bit fields of a graphics byte (R66). -/
theorem graphicsFields_cut (a b c d : BitVec 2) :
    let v : Byte := a ++ b ++ c ++ d
    bitsOf v 6 2 = a ∧ bitsOf v 4 2 = b ∧ bitsOf v 2 2 = c ∧ bitsOf v 0 2 = d := by
  revert a b c d; decide

theorem graphicsFields_join (b : Byte) : bitsOf b 6 2 ++ bitsOf b 4 2 ++ bitsOf b 2 2 ++ bitsOf b 0 2 = b := by
  revert b; decide

/-- A port offset is the low five bits of its byte (R17). -/
theorem portOffset_cut (o : BitVec 5) : bitsOf (0#3 ++ o) 5 3 = 0#3 ∧ bitsOf (0#3 ++ o) 0 5 = o :=
  ⟨BitVec.extractLsb'_append_eq_left, BitVec.extractLsb'_append_eq_right⟩

theorem portOffset_join {b : Byte} (inPort : bitsOf b 5 3 = 0#3) : 0#3 ++ bitsOf b 0 5 = b := by
  rw [← inPort]; exact palWidth_join b

/-! ## The offset map of the port (R70) -/

theorem decodePort_palette (p : BitVec 3) (a : PortAccess) :
    decodePort (p ++ 1#2) a = .regPaletteC1 p a ∧ decodePort (p ++ 2#2) a = .regPaletteC2 p a ∧
    decodePort (p ++ 3#2) a = .regPaletteC3 p a := by
  have index (c : BitVec 2) : (p ++ c).extractLsb' 2 3 = p := BitVec.extractLsb'_append_eq_left
  have colour (c : BitVec 2) : (p ++ c).extractLsb' 0 2 = c := BitVec.extractLsb'_append_eq_right
  simp [decodePort, index, colour]

/-- Settles O7: the palette offsets carry their index, and the other eight are evaluated. -/
theorem portOffsetsSelectTheirRegisters : Obligations.PortOffsetsSelectTheirRegisters := by
  intro a p
  obtain ⟨c1, c2, c3⟩ := decodePort_palette p a
  exact ⟨c1, c2, c3, rfl, rfl, rfl, rfl, rfl, rfl, rfl, rfl⟩

/-- Every offset is one of the map's: a colour of a palette, or a multiple of 4. -/
theorem portOffset_cases (o : BitVec 5) :
    (∃ p : BitVec 3, o = p ++ 1#2) ∨ (∃ p : BitVec 3, o = p ++ 2#2) ∨ (∃ p : BitVec 3, o = p ++ 3#2) ∨
    o = 0x00#5 ∨ o = 0x04#5 ∨ o = 0x08#5 ∨ o = 0x0C#5 ∨ o = 0x10#5 ∨ o = 0x14#5 ∨ o = 0x18#5 ∨ o = 0x1C#5 := by
  revert o; decide

theorem encode_decodePort (o : BitVec 5) (a : PortAccess) : encode (decodePort o a) = encodePort o a := by
  obtain ⟨p, rfl⟩ | ⟨p, rfl⟩ | ⟨p, rfl⟩ | h := portOffset_cases o
  · rw [(decodePort_palette p a).1, encode]
  · rw [(decodePort_palette p a).2.1, encode]
  · rw [(decodePort_palette p a).2.2, encode]
  · obtain rfl | rfl | rfl | rfl | rfl | rfl | rfl | rfl := h <;> rfl

theorem stream_decodePort (o : BitVec 5) (a : PortAccess) : (decodePort o a).stream = .port := by
  obtain ⟨p, rfl⟩ | ⟨p, rfl⟩ | ⟨p, rfl⟩ | h := portOffset_cases o
  · rw [(decodePort_palette p a).1, Instr.stream]
  · rw [(decodePort_palette p a).2.1, Instr.stream]
  · rw [(decodePort_palette p a).2.2, Instr.stream]
  · obtain rfl | rfl | rfl | rfl | rfl | rfl | rfl | rfl := h <;> rfl

/-- A short header is the one record with an operand that is not free (R63, R68). -/
theorem wellFormed_of_stream {i : Instr} (h : i.stream ≠ .displayList) : i.wellFormed = true := by
  cases i with
  | dlEnd | dlLong | dlShort => exact absurd rfl h
  | _ => rfl

/-! ## Decoding what was encoded -/

theorem decodePortBytes_encodePort (o : BitVec 5) (a : PortAccess) (rest : List Byte) :
    decodePortBytes (encodePort o a ++ rest) = .ok (decodePort o a, rest) := by
  obtain ⟨high, low⟩ := portOffset_cut o
  cases a <;> simp [encodePort, decodePortBytes, high, low]

theorem decode_encode_port {i : Instr} {o : BitVec 5} {a : PortAccess} (is : i = decodePort o a) (rest : List Byte) :
    decode i.stream (encode i ++ rest) = .ok (i, rest) := by
  subst is
  rw [stream_decodePort, encode_decodePort, decode, decodePortBytes_encodePort]

/-- Settles O1: the fields joined by `encode` are cut out again, and byte 1 of a header has its record's class. -/
theorem decodeOfEncodeIsTheInstruction : Obligations.DecodeOfEncodeIsTheInstruction := by
  intro i rest wf
  cases i with
  | zone dli h16 h8 ignored height hi lo =>
    obtain ⟨b7, b6, b5, b4, low⟩ := zoneFlags_cut dli h16 h8 ignored height
    simp only [encode, Instr.stream, List.cons_append, List.nil_append, decode, decodeZone, b7, b6, b5, b4, low]
  | dlEnd i7 i5 =>
    obtain ⟨b7, b5, mask⟩ := modeByte_cut i7 i5 0#1
    have isEnd := classify_eq_endOfList_iff.mpr mask
    simp only [encode, Instr.stream, List.cons_append, List.nil_append, decode, decodeHeaderBytes, isEnd, decodeEnd, b7, b5]
  | dlLong lo wm ind hi pal wraw hpos =>
    obtain ⟨b7, b5, mask⟩ := modeByte_cut wm ind 1#1
    obtain ⟨high, low⟩ := palWidth_cut pal wraw
    have isLong := classify_eq_long_iff.mpr mask
    simp only [encode, Instr.stream, List.cons_append, List.nil_append, decode, decodeHeaderBytes, isLong, decodeLong, b7, b5,
      high, low]
  | dlShort lo pal wraw hi hpos =>
    obtain ⟨high, low⟩ := palWidth_cut pal wraw
    have isShort : classify (pal ++ wraw) = .short := by
      rw [classify_eq_short_iff_rawWidth_ne_zero, low]
      simpa [Instr.wellFormed] using wf
    simp only [encode, Instr.stream, List.cons_append, List.nil_append, decode, decodeHeaderBytes, isShort, decodeShort, high,
      low]
  | gfxWm0 c0 c1 c2 c3 =>
    obtain ⟨f0, f1, f2, f3⟩ := graphicsFields_cut c0 c1 c2 c3
    simp [encode, Instr.stream, decode, decodeGraphics, f0, f1, f2, f3]
  | gfxWm1 c0 c1 p0 p1 =>
    obtain ⟨f0, f1, f2, f3⟩ := graphicsFields_cut c0 c1 p0 p1
    simp [encode, Instr.stream, decode, decodeGraphics, f0, f1, f2, f3]
  | charptr c => rfl
  | regBackgrnd a => exact decode_encode_port (o := 0x00#5) rfl rest
  | regWsync a => exact decode_encode_port (o := 0x04#5) rfl rest
  | regMstat a => exact decode_encode_port (o := 0x08#5) rfl rest
  | regDpph a => exact decode_encode_port (o := 0x0C#5) rfl rest
  | regDppl a => exact decode_encode_port (o := 0x10#5) rfl rest
  | regChbase a => exact decode_encode_port (o := 0x14#5) rfl rest
  | regOffset a => exact decode_encode_port (o := 0x18#5) rfl rest
  | regCtrl a => exact decode_encode_port (o := 0x1C#5) rfl rest
  | regPaletteC1 p a => exact decode_encode_port (decodePort_palette p a).1.symm rest
  | regPaletteC2 p a => exact decode_encode_port (decodePort_palette p a).2.1.symm rest
  | regPaletteC3 p a => exact decode_encode_port (decodePort_palette p a).2.2.symm rest

/-! ## Encoding what was decoded -/

/-- An end position's byte 0 is not decoded, so its encoding has 0 there (R64, R69). -/
theorem encode_decodeEnd {m : Byte} (isEnd : classify m = .endOfList) : encode (decodeEnd m) = [0#8, m] := by
  rw [decodeEnd, encode, endMode_join (classify_eq_endOfList_iff.mp isEnd)]

theorem encode_decodeLong {m : Byte} (isLong : classify m = .long) (b0 b2 b3 b4 : Byte) :
    encode (decodeLong b0 m b2 b3 b4) = [b0, m, b2, b3, b4] := by
  rw [decodeLong, encode, longMode_join (classify_eq_long_iff.mp isLong), palWidth_join]

theorem encode_decodeShort (b0 m b2 b3 : Byte) : encode (decodeShort b0 m b2 b3) = [b0, m, b2, b3] := by
  rw [decodeShort, encode, palWidth_join]

theorem wellFormed_decodeShort {m : Byte} (isShort : classify m = .short) (b0 b2 b3 : Byte) :
    (decodeShort b0 m b2 b3).wellFormed = true := by
  simpa [decodeShort, Instr.wellFormed] using classify_eq_short_iff_rawWidth_ne_zero.mp isShort

theorem encode_decodeGraphics (w : Bool) (b : Byte) : encode (decodeGraphics w b) = [b] := by
  cases w <;> simp [decodeGraphics, encode, graphicsFields_join]

/-- The bytes `bs` come back from the instruction they decode to, byte 0 of an end position cleared (R64, R69). -/
def EncodesBack (st : Stream) (bs rest : List Byte) (i : Instr) : Prop :=
  i.wellFormed = true ∧ i.stream = st ∧
  ((∀ a b, i ≠ .dlEnd a b) → encode i ++ rest = bs) ∧
  (∀ a b, i = .dlEnd a b → encode i ++ rest = 0#8 :: bs.tail)

/-- Off the display list no byte is lost, and every operand is free. -/
theorem encodesBack_of_stream {st : Stream} {bs rest : List Byte} {i : Instr} (stream : i.stream = st)
    (off : st ≠ .displayList) (bytes : encode i ++ rest = bs) : EncodesBack st bs rest i :=
  ⟨wellFormed_of_stream (stream ▸ off), stream, fun _ => bytes,
    fun _ _ isEnd => absurd (stream.symm.trans (congrArg Instr.stream isEnd)) off⟩

theorem decodeHeaderBytes_encodesBack {bs rest : List Byte} {i : Instr} (h : decodeHeaderBytes bs = .ok (i, rest)) :
    EncodesBack .displayList bs rest i := by
  unfold decodeHeaderBytes at h
  split at h
  next b0 m tail =>
    split at h
    next isEnd =>
      cases h
      exact ⟨rfl, rfl, fun ne => absurd rfl (ne _ _), fun _ _ _ => by rw [encode_decodeEnd isEnd]; rfl⟩
    next isLong =>
      split at h
      next b2 b3 b4 tail =>
        cases h
        exact ⟨rfl, rfl, fun _ => by rw [encode_decodeLong isLong]; rfl, fun _ _ isEnd => by cases isEnd⟩
      next => cases h
    next isShort =>
      split at h
      next b2 b3 tail =>
        cases h
        exact ⟨wellFormed_decodeShort isShort b0 b2 b3, rfl, fun _ => by rw [encode_decodeShort]; rfl,
          fun _ _ isEnd => by cases isEnd⟩
      next => cases h
  next => cases h

/-- The bytes of a port access are its offset, its direction and, for a write, its value (log 6). -/
theorem decodePortBytes_encodesBack {bs rest : List Byte} {i : Instr} (h : decodePortBytes bs = .ok (i, rest)) :
    EncodesBack .port bs rest i := by
  unfold decodePortBytes at h
  split at h
  next b0 d tail =>
    split at h
    next => cases h
    next inPort =>
      have offset := portOffset_join (by simpa using inPort : bitsOf b0 5 3 = 0#3)
      split at h
      next isRead =>
        cases h
        refine encodesBack_of_stream (stream_decodePort _ _) (by decide) ?_
        rw [encode_decodePort, encodePort, offset, beq_iff_eq.mp isRead]; rfl
      next =>
        split at h
        next isWrite =>
          split at h
          next v tail =>
            cases h
            refine encodesBack_of_stream (stream_decodePort _ _) (by decide) ?_
            rw [encode_decodePort, encodePort, offset, beq_iff_eq.mp isWrite]; rfl
          next => cases h
        next => cases h
  next => cases h

/-- Settles O2: stream by stream, the record's fields join to its bytes. -/
theorem encodeOfDecodeIsTheBytes : Obligations.EncodeOfDecodeIsTheBytes := by
  intro st bs rest i h
  change EncodesBack st bs rest i
  unfold decode at h
  split at h
  next b0 b1 b2 tail =>
    cases h
    exact encodesBack_of_stream rfl (by decide) (by rw [decodeZone, encode, zoneFlags_join]; rfl)
  next => cases h
  next => exact decodeHeaderBytes_encodesBack h
  next w b tail =>
    cases h
    exact encodesBack_of_stream (decodeGraphics_stream w b) (by simp) (by rw [encode_decodeGraphics]; rfl)
  next => cases h
  next c tail =>
    cases h
    exact encodesBack_of_stream rfl (by decide) rfl
  next => cases h
  next => exact decodePortBytes_encodesBack h

/-! ## Written out and assembled records -/

/-- Settles O3: each record's bytes are its encoding. -/
theorem writtenOutRecordsDecode : Obligations.WrittenOutRecordsDecode := by
  have decodes (i : Instr) := decodeOfEncodeIsTheInstruction i []
  exact ⟨decodes (.zone true true true false 7#4 0x18#8 0x20#8) rfl, decodes (.dlEnd true true) rfl,
    decodes (.dlLong 0x00#8 true false 0x40#8 5#3 0x1E#5 0x14#8) rfl,
    decodes (.dlShort 0x00#8 2#3 0x1C#5 0x18#8 0x0A#8) rfl, decodes (.gfxWm0 1#2 2#2 3#2 0#2) rfl,
    decodes (.gfxWm1 3#2 1#2 2#2 1#2) rfl, decodes (.charptr 0x02#8) rfl,
    decodes (.regPaletteC1 7#3 (.write 0x0F#8)) rfl⟩

/-- The bytes with bits 6 and 4 to 0 clear, and those with only bit 6 of them set: bits 7 and 5 are free. -/
theorem classMask_values (m : Byte) :
    (m &&& 0x5F#8 = 0x00#8 ↔ m = 0x00#8 ∨ m = 0x20#8 ∨ m = 0x80#8 ∨ m = 0xA0#8) ∧
    (m &&& 0x5F#8 = 0x40#8 ↔ m = 0x40#8 ∨ m = 0x60#8 ∨ m = 0xC0#8 ∨ m = 0xE0#8) := by
  revert m; decide

/-- Settles O4: `classify` answers one of three classes, by the two masked values of R58. -/
theorem headerClassesPartitionTheModeByte : Obligations.HeaderClassesPartitionTheModeByte := by
  intro m
  obtain ⟨ends, longs⟩ := classMask_values m
  refine ⟨classify_eq_endOfList_iff.trans ends, classify_eq_long_iff.trans longs, ?short, ?disjoint⟩
  case short => cases classify m <;> decide
  case disjoint =>
    rintro ⟨isEnd, isLong⟩
    rw [isLongMode_eq_false_of_isEndMode isEnd] at isLong
    cases isLong

/-- The assembler's byte of palette and width is the two fields joined (R71). -/
theorem asmPalWidth_eq (pal : BitVec 3) (width : Nat) : asmPalWidth pal width = pal ++ BitVec.ofNat 5 (32 - width) := by
  have join : ∀ (pal : BitVec 3) (b : Byte), pal.setWidth 8 <<< 5 ||| b &&& 0x1F#8 = pal ++ b.setWidth 5 := by decide
  rw [asmPalWidth, join, BitVec.setWidth_ofNat_of_le (by decide)]

theorem emit_zone (d a b : Bool) (n : BitVec 4) (dl : Addr) :
    AsmLine.emit (.zone d a b n dl) = encode (.zone d a b false n (hiByte dl) (loByte dl)) := by
  have join : ∀ (d a b : Bool) (n : BitVec 4),
      (BitVec.ofBool d).setWidth 8 <<< 7 ||| (BitVec.ofBool a).setWidth 8 <<< 6 |||
          (BitVec.ofBool b).setWidth 8 <<< 5 ||| n.setWidth 8 =
        BitVec.ofBool d ++ BitVec.ofBool a ++ BitVec.ofBool b ++ BitVec.ofBool false ++ n := by decide
  rw [AsmLine.emit, encode, join]

theorem emit_hdr4 (gfx : Addr) (pal : BitVec 3) (w : Nat) (hpos : Byte) :
    AsmLine.emit (.hdr4 gfx pal w hpos) =
      encode (.dlShort (loByte gfx) pal (BitVec.ofNat 5 (32 - w)) (hiByte gfx) hpos) := by
  rw [AsmLine.emit, encode, asmPalWidth_eq]

theorem emit_hdr5 (gfx : Addr) (wm ind : Bool) (pal : BitVec 3) (w : Nat) (hpos : Byte) :
    AsmLine.emit (.hdr5 gfx wm ind pal w hpos) =
      encode (.dlLong (loByte gfx) wm ind (hiByte gfx) pal (BitVec.ofNat 5 (32 - w)) hpos) := by
  have join : ∀ wm ind : Bool,
      0x40#8 ||| (BitVec.ofBool wm).setWidth 8 <<< 7 ||| (BitVec.ofBool ind).setWidth 8 <<< 5 =
        BitVec.ofBool wm ++ 1#1 ++ BitVec.ofBool ind ++ 0#5 := by decide
  rw [AsmLine.emit, encode, asmPalWidth_eq, join]

/-- Widths 1 to 31 have a raw field that is not 0 (R63). -/
theorem ofNat_sub_ne_zero {w : Nat} (pos : 1 ≤ w) (le : w ≤ 31) : BitVec.ofNat 5 (32 - w) ≠ 0#5 := by
  intro raw
  have width := decodeWidth_ofNat_sub pos (by omega)
  rw [raw, decodeWidth_eq, BitVec.toNat_ofNat] at width
  omega

/-- Settles O6: a line's bytes are the encoding of the record it names, with the raw width 32 less the width. -/
theorem assembledLinesDecode : Obligations.AssembledLinesDecode := by
  have decodes (i : Instr) (wf : i.wellFormed = true) : decode i.stream (encode i) = .ok (i, []) := by
    simpa using decodeOfEncodeIsTheInstruction i [] wf
  refine ⟨fun d a b n dl => ?zone, fun gfx pal w hpos pos le => ⟨_, decodeWidth_ofNat_sub pos (by omega), ?hdr4⟩,
    fun gfx wm ind pal w hpos pos le => ⟨_, decodeWidth_ofNat_sub pos le, ?hdr5⟩, rfl⟩
  case zone =>
    rw [emit_zone]
    exact decodes (.zone d a b false n (hiByte dl) (loByte dl)) rfl
  case hdr4 =>
    rw [emit_hdr4]
    exact decodes (.dlShort (loByte gfx) pal _ (hiByte gfx) hpos)
      (by simpa [Instr.wellFormed] using ofNat_sub_ne_zero pos le)
  case hdr5 =>
    rw [emit_hdr5]
    exact decodes (.dlLong (loByte gfx) wm ind (hiByte gfx) pal _ hpos) rfl

end Sys2Proof.Machine
end

