-- ==== Sys2Proof/Proofs/Line.lean ====
section
/-! The fields of a state at the start of a line's DMA (`lineStart`) and at the end of a line (`endLine`), and the frame of a
register-port access: the layer that the proofs about steps cite. -/
namespace Sys2Proof.Machine

/-! ## `lineStart` (R76, R79) -/

@[simp] theorem lineStart_zone (s : State) : (lineStart s).zone = s.zone := rfl
@[simp] theorem lineStart_zoneValid (s : State) : (lineStart s).zoneValid = s.zoneValid := rfl
@[simp] theorem lineStart_dl (s : State) : (lineStart s).dl = s.dl := rfl
@[simp] theorem lineStart_writeMode (s : State) : (lineStart s).writeMode = s.writeMode := rfl
@[simp] theorem lineStart_budget (s : State) : (lineStart s).budget = s.par.dmaMaxCycles := rfl
@[simp] theorem lineStart_exhausted (s : State) : (lineStart s).exhausted = false := rfl
@[simp] theorem lineStart_fault (s : State) : (lineStart s).fault = s.fault := rfl
@[simp] theorem lineStart_dli (s : State) : (lineStart s).out.dli = false := rfl
@[simp] theorem lineStart_mem (s : State) : (lineStart s).mem = s.mem := rfl
@[simp] theorem lineStart_busFaults (s : State) : (lineStart s).busFaults = s.busFaults := rfl
@[simp] theorem lineStart_par (s : State) : (lineStart s).par = s.par := rfl
@[simp] theorem lineStart_reads (s : State) : (lineStart s).reads = [] := rfl
@[simp] theorem writeBuffer_lineStart (s : State) : writeBuffer (lineStart s) = writeBuffer s := rfl

/-! ## `endLine` (R83, R130, R146) -/

@[simp] theorem endLine_reg (u : State) : (endLine u).reg = u.reg := by rw [endLine_eq]
@[simp] theorem endLine_zone (u : State) : (endLine u).zone = u.zone := by rw [endLine_eq]
@[simp] theorem endLine_zoneValid (u : State) : (endLine u).zoneValid = u.zoneValid := by rw [endLine_eq]
@[simp] theorem endLine_dl (u : State) : (endLine u).dl = u.dl := by rw [endLine_eq]
@[simp] theorem endLine_writeMode (u : State) : (endLine u).writeMode = u.writeMode := by rw [endLine_eq]
@[simp] theorem endLine_budget (u : State) : (endLine u).budget = u.budget := by rw [endLine_eq]
@[simp] theorem endLine_exhausted (u : State) : (endLine u).exhausted = u.exhausted := by rw [endLine_eq]
@[simp] theorem endLine_writeSel (u : State) : (endLine u).writeSel = !u.writeSel := by rw [endLine_eq]
@[simp] theorem endLine_fault (u : State) : (endLine u).fault = u.fault := by rw [endLine_eq]
@[simp] theorem endLine_out (u : State) :
    (endLine u).out = { u.out with dmaConsumed := u.par.dmaMaxCycles - u.budget, wsync := false } := by rw [endLine_eq]
@[simp] theorem endLine_inbox (u : State) : (endLine u).inbox = u.inbox := by rw [endLine_eq]
@[simp] theorem endLine_par (u : State) : (endLine u).par = u.par := by rw [endLine_eq]
@[simp] theorem endLine_portData (u : State) : (endLine u).portData = u.portData := by rw [endLine_eq]
@[simp] theorem endLine_gfxIndex (u : State) : (endLine u).gfxIndex = 0 := by rw [endLine_eq]
@[simp] theorem endLine_reads (u : State) : (endLine u).reads = u.reads := by rw [endLine_eq]
@[simp] theorem endLine_draws (u : State) : (endLine u).draws = u.draws := by rw [endLine_eq]

/-! ## A register-port access (R140, R143, R165) -/

/-- A port access changes registers, `out.wsync` and `portData` only. -/
def PortFrame (s t : State) : Prop :=
  t = { s with reg := t.reg, out := { s.out with wsync := t.out.wsync }, portData := t.portData }

theorem servePort_frame {a : PortAccess} {value : Byte} {onWrite : Byte → State} {s : State}
    (write : ∀ v, PortFrame s (onWrite v)) : PortFrame s (servePort a value onWrite s) := by
  cases a with
  | read => rfl
  | write v => exact write v

/-- Every access completes, and keeps to its frame. -/
theorem exec_port {i : Instr} (port : i.stream = .port) (s : State) : ∃ t, exec i s = .next t ∧ PortFrame s t := by
  cases i with
  | zone | dlEnd | dlLong | dlShort | gfxWm0 | gfxWm1 | charptr => cases port
  | _ => exact ⟨_, rfl, servePort_frame fun _ => rfl⟩

end Sys2Proof.Machine
end

