-- ==== Sys2Proof/Proofs/Invariant.lean ====
section
/-! `State.Inv` right after reset, and kept by every step: by a completed line through `DmaFrame`, by a bus error and by each
move of the host. -/
namespace Sys2Proof.Machine

/-! ## Reset -/

theorem vPeriod_pos (p : Params) : 0 < vPeriod p := by
  unfold vPeriod; split <;> decide

/-- A reset meets the invariant whatever canonical memory and bus the host has. -/
theorem inv_of_resetWith {p : Params} {k : Nat} {m : Memory} {faults : List Nat} {inbox : List HostMove} {data : Byte}
    (memory : m.wf = true) (busFaults : risingFrom 0 faults = true) :
    State.Inv { State.resetWith p k with mem := m, busFaults := faults, inbox := inbox, portData := data } where
  memory := memory
  busFaults := busFaults
  scanline := vPeriod_pos p
  clock := rfl
  countdown := BitVec.le_refl _
  width := Nat.zero_le _
  endCleared := fun isEnd => nomatch isEnd
  budget := Nat.le_refl _
  exhausted := fun spent => nomatch spent
  buf0 := List.length_replicate
  buf1 := List.length_replicate
  line := fun _ h => nomatch h
  gfxIndex := rfl

/-- Settles O57: memory and bus are empty at reset. -/
theorem resetStateMeetsTheInvariant : Obligations.ResetStateMeetsTheInvariant :=
  inv_of_resetWith (m := []) (faults := []) rfl rfl

/-! ## A completed line -/

theorem tick_inRange {s : State} (inRange : s.coord.scanline < vPeriod s.par) :
    (tick s).coord.scanline < vPeriod s.par ∧ (tick s).coord.clock = 0 := by
  by_cases last : s.coord.scanline + 1 = vPeriod s.par
  · rw [tick_of_lastLine last]
    exact ⟨vPeriod_pos _, rfl⟩
  · rw [tick_of_not_lastLine last]
    exact ⟨by simp only; omega, rfl⟩

/-- Whichever buffer is selected, both have `n` cells if the read and the write buffer have. -/
theorem buffers_length_iff (s : State) (n : Nat) :
    (readBuffer s).length = n ∧ (writeBuffer s).length = n ↔ s.buf0.length = n ∧ s.buf1.length = n := by
  unfold readBuffer writeBuffer
  cases s.writeSel <;> simp [and_comm]

/-- The end of a line after any DMA of a line that began in a good state (R16, R27, R31, R34, R112). -/
theorem inv_endLine {s u : State} (inv : s.Inv) (dma : DmaFrame (lineStart s) u) : (endLine u).Inv := by
  have started : (readBuffer s).length = Config.lineCells ∧ (writeBuffer s).length = Config.lineCells :=
    (buffers_length_iff s _).mpr ⟨inv.buf0, inv.buf1⟩
  have ended : (endLine u).buf0.length = Config.lineCells ∧ (endLine u).buf1.length = Config.lineCells := by
    rw [← buffers_length_iff, (endLine_buffers u).1, (endLine_buffers u).2]
    exact ⟨dma.length.trans started.2, List.length_replicate⟩
  have coord : (endLine u).coord = (tick s).coord := (endLine_coord u).trans (tick_coord_congr dma.coord dma.par)
  have par : u.par = s.par := dma.par
  obtain ⟨inRange, clock⟩ := tick_inRange inv.scanline
  obtain ⟨width, endCleared⟩ := dma.header ⟨inv.width, inv.endCleared⟩
  exact
    { memory := by simpa [dma.mem] using inv.memory
      busFaults := by simpa [dma.busFaults] using inv.busFaults
      scanline := by rw [coord, endLine_par, par]; exact inRange
      clock := by rw [coord]; exact clock
      countdown := by simpa using dma.zone inv.countdown
      width := by simpa using width
      endCleared := by simpa using endCleared
      budget := by simpa [par] using dma.budget
      exhausted := by simpa using dma.exhaustedZero fun spent => nomatch spent
      buf0 := ended.1
      buf1 := ended.2
      line := by
        intro l h
        rw [endLine_out, dma.line] at h
        cases h
        simpa [resolve] using started.1
      gfxIndex := endLine_gfxIndex u }

theorem inv_takeBusError {s : State} (inv : s.Inv) (f : FaultRecord) : (takeBusError s f).Inv := { inv with }

theorem stepScanline_keeps_inv {s t : State} (inv : s.Inv) (h : stepScanline s = .next t) : t.Inv := by
  obtain ⟨-, -, completed | ⟨f, -, rfl⟩⟩ := stepScanline_next.mp h
  · obtain ⟨u, dma, rfl⟩ := scanline_ok completed
    exact inv_endLine inv dma
  · exact inv_takeBusError inv f

/-! ## The host's moves -/

theorem inv_of_portFrame {s t : State} (inv : s.Inv) (frame : PortFrame s t) : t.Inv := by
  rw [frame]
  exact { inv with }

theorem hostMove_keeps_inv {m : HostMove} {s t : State} (inv : s.Inv) (h : hostMove m s = .next t) : t.Inv := by
  cases m with
  | port o a =>
    obtain ⟨u, run, frame⟩ := exec_port (stream_decodePort o a) s
    cases run.symm.trans h
    exact inv_of_portFrame inv frame
  | memWrite a v =>
    cases h
    exact { inv with memory := Memory.write_wf inv.memory a v }
  | busFail a =>
    cases h
    exact { inv with busFaults := insertAddr_rising (Nat.zero_le _) a.isLt inv.busFaults }
  | busAnswer a =>
    cases h
    exact { inv with busFaults := removeAddr_rising a.toNat inv.busFaults }
  | reset =>
    cases h
    exact inv_of_resetWith inv.memory inv.busFaults
  | scanline => exact stepScanline_keeps_inv inv h

theorem inv_withInbox {s : State} (inv : s.Inv) (inbox : List HostMove) : State.Inv { s with inbox := inbox } :=
  { inv with }

/-- Settles O58: a step is a move of the host or a scanline step, and the inbox has no part in the invariant. -/
theorem everyStepKeepsTheInvariant : Obligations.EveryStepKeepsTheInvariant := by
  intro s t inv h
  cases turns : s.inbox with
  | nil =>
    rw [step_blockTurn (.inl turns)] at h
    exact stepScanline_keeps_inv (inv_withInbox inv _) h
  | cons m rest =>
    rw [step_hostMove turns] at h
    exact hostMove_keeps_inv (inv_withInbox inv rest) h

end Sys2Proof.Machine
end

