-- ==== Sys2Proof/Proofs/Instructions.lean ====
section
/-! The whole next state of each instruction (R86, R96 to R99, R118, R122, R140 to R151), with addresses as sums (R44) and the
outcomes of a charge (R108). -/
namespace Sys2Proof.Machine

/-! ## Addresses as sums (R44, R65, R67) -/

theorem shiftByte_eq {w : Nat} (le : w ≤ 8) (x : BitVec w) : x.setWidth 16 <<< 8 = BitVec.ofNat 16 (256 * x.toNat) := by
  have small : x.toNat < 256 := x.isLt.trans_le (Nat.pow_le_pow_right (by decide) le)
  apply BitVec.eq_of_toNat_eq
  rw [BitVec.toNat_shiftLeft, BitVec.toNat_setWidth, BitVec.toNat_ofNat, Nat.shiftLeft_eq]
  omega

theorem joinAddr_eq (hi lo : Byte) : joinAddr hi lo = BitVec.ofNat 16 (256 * hi.toNat + lo.toNat) := by
  have disjoint : 256 * hi.toNat ||| lo.toNat = 256 * hi.toNat + lo.toNat :=
    (Nat.two_pow_add_eq_or_of_lt (i := 8) lo.isLt hi.toNat).symm
  rw [joinAddr, shiftByte_eq (by decide)]
  apply BitVec.eq_of_toNat_eq
  rw [BitVec.toNat_or, BitVec.toNat_setWidth, BitVec.toNat_ofNat, BitVec.toNat_ofNat,
    Nat.mod_eq_of_lt (by omega), Nat.mod_eq_of_lt (by omega), Nat.mod_eq_of_lt (by omega), disjoint]

/-- The zone offset is added to the high byte (R65, R116). -/
theorem joinAddr_add_zoneOffset (hi lo : Byte) (s : State) :
    joinAddr hi lo + zoneOffset s = BitVec.ofNat 16 (256 * hi.toNat + lo.toNat + 256 * s.zone.remaining.toNat) := by
  rw [joinAddr_eq, zoneOffset, shiftByte_eq (by decide), BitVec.ofNat_add_ofNat]

/-! ## The three outcomes of a charge (R108) -/

theorem charge_of_exhausted {s : State} (spent : s.exhausted = true) (kind : EventKind) (h : Bool) :
    charge kind h s = (false, s) :=
  (chargeLaw kind h s _ rfl).1 spent

theorem charge_of_fits {s : State} {kind : EventKind} {h : Bool} (live : s.exhausted = false)
    (fits : eventCost s kind h ≤ s.budget) :
    charge kind h s = (true, { s with budget := s.budget - eventCost s kind h }) :=
  (chargeLaw kind h s _ (eventCost_eq s kind h)).2.1 live fits

theorem charge_of_short {s : State} {kind : EventKind} {h : Bool} (live : s.exhausted = false)
    (short : s.budget < eventCost s kind h) :
    charge kind h s = (false, { s with budget := 0, exhausted := true }) :=
  (chargeLaw kind h s _ (eventCost_eq s kind h)).2.2 live short

/-! ## Whole next states -/

/-- Settles O8: `execZone` written out. -/
theorem zoneRecordBecomesTheZone : Obligations.ZoneRecordBecomesTheZone := fun _ _ _ _ _ _ _ _ => rfl

/-- Settles O9: the widths of the two headers are R62's. -/
theorem headersBecomeTheHeaderState : Obligations.HeadersBecomeTheHeaderState := by
  refine fun s => ⟨fun a b => rfl, fun lo wm ind hi pal wraw hpos => ?long, fun lo pal wraw hi hpos => ?short⟩
  case long => rw [← decodeWidth_eq]; rfl
  case short => rw [← decodeWidth_eq]; rfl

/-- Settles O10: the positions are R115's, and `writeGraphicsByte` is the byte decoded in the mode in force. -/
theorem graphicsBytesWriteTheirCells : Obligations.GraphicsBytesWriteTheirCells := by
  refine fun s => ⟨?wm0, ?wm1, fun b => exec_decodeGraphics b s, fun b => rfl, fun b => rfl⟩
  case wm0 => rintro c0 c1 c2 c3 _ rfl; rfl
  case wm1 => rintro c0 c1 p0 p1 _ rfl; rfl

/-- Settles O14: each offset is evaluated to its register's arm. -/
theorem portWritesStoreTheirRegister : Obligations.PortWritesStoreTheirRegister := fun _ _ =>
  ⟨rfl, rfl, rfl, rfl, rfl, rfl, rfl, rfl⟩

/-- Settles O15: the new bank has palette `p` replaced, whose other two bytes are the old ones. -/
theorem paletteWritesSetOneByte : Obligations.PaletteWritesSetOneByte := by
  intro p v s
  obtain ⟨c1, c2, c3⟩ := decodePort_palette p (.write v)
  have replaced (q : Palette) : getPalette (putPalette s.reg.palette p q) p = q ∧
      ∀ r, r ≠ p → getPalette (putPalette s.reg.palette p q) r = getPalette s.reg.palette r :=
    ⟨getPalette_putPalette_same _ _ _, fun r other => getPalette_putPalette_other _ _ other⟩
  rw [c1, c2, c3]
  exact ⟨⟨_, rfl, replaced _⟩, ⟨_, rfl, replaced _⟩, ⟨_, rfl, replaced _⟩⟩

theorem inDmaWindow_eq_false_iff {s : State} :
    inDmaWindow s = false ↔ s.coord.scanline < s.par.firstDmaLine ∨ s.par.lastDmaLine < s.coord.scanline := by
  rw [← Bool.not_eq_true, inDmaWindow, Bool.and_eq_true, decide_eq_true_eq, decide_eq_true_eq]
  omega

theorem mstat_eq (s : State) :
    mstat s =
      if s.coord.scanline < s.par.firstDmaLine ∨ s.par.lastDmaLine < s.coord.scanline then 0x80#8 else 0x00#8 := by
  rw [mstat]
  simp only [← inDmaWindow_eq_false_iff]
  cases inDmaWindow s <;> rfl

/-- Settles O16: the readable registers are the background, the palettes and MSTAT. -/
theorem portReadsReturnTheirByte : Obligations.PortReadsReturnTheirByte := by
  refine fun s => ⟨rfl, ?mstat, ?zero, fun p => ?palette⟩
  case mstat => rw [← mstat_eq]; rfl
  case zero => rintro o (rfl | rfl | rfl | rfl | rfl | rfl) <;> rfl
  case palette =>
    obtain ⟨c1, c2, c3⟩ := decodePort_palette p .read
    rw [c1, c2, c3]
    exact ⟨rfl, rfl, rfl⟩

/-! ## CHARPTR (R118) -/

theorem drawCharacter_unpaid {c : Byte} {s t : State}
    (charged : charge (characterKind s) (holey s (characterBase s c)) s = (false, t)) : drawCharacter c s = .ok t := by
  rw [drawCharacter]; simp only [charged]

theorem drawCharacter_holey {c : Byte} {s t : State} (hole : holey s (characterBase s c) = true)
    (charged : charge (characterKind s) true s = (true, t)) :
    drawCharacter c s = .ok (passBytes (bytesPerCharacter t) t) := by
  rw [drawCharacter]; simp only [hole, charged, if_true]

theorem drawCharacter_solid {c : Byte} {s t : State} (solid : holey s (characterBase s c) = false)
    (charged : charge (characterKind s) false s = (true, t)) :
    drawCharacter c s = drawCharacterBytes (bytesPerCharacter t) (characterBase s c) t := by
  rw [drawCharacter]; simp only [solid, charged, Bool.false_eq_true, if_false]

theorem drawCharacterBytes_succ {n : Nat} {a : Addr} {s : State} {b : Byte} (read : busByte s a = some b) :
    drawCharacterBytes (n + 1) a s =
      drawCharacterBytes n (a + 1) (writeGraphicsByte b { s with reads := s.reads ++ [(a, .graphicsRead)] }) := by
  rw [drawCharacterBytes, busRead_answers read]

theorem drawCharacterBytes_fails {n : Nat} {a : Addr} {s : State} (fails : busByte s a = none) :
    drawCharacterBytes (n + 1) a s = .error (.busError { kind := .busError, addr := a, op := .graphicsRead }) := by
  rw [drawCharacterBytes, busRead_fails fails]

/-- Drawing a graphics byte leaves the bus as it was. -/
theorem busByte_writeGraphicsByte (b : Byte) (s : State) (a : Addr) : busByte (writeGraphicsByte b s) a = busByte s a :=
  busByte_congr (writeGraphicsByte_frame b s).mem (writeGraphicsByte_frame b s).busFaults a

theorem execCharptr_of_ok {c : Byte} {s t : State} (drawn : drawCharacter c s = .ok t) :
    exec (.charptr c) s = .next t := by
  rw [exec, execCharptr, drawn]; rfl

theorem execCharptr_of_busError {c : Byte} {s : State} {f : FaultRecord} (fails : drawCharacter c s = .error (.busError f)) :
    exec (.charptr c) s = .next (takeBusError s f) := by
  rw [exec, execCharptr, fails]; rfl

/-- Settles O12: the charge fits, then the character passes its positions or draws its one or two bytes. -/
theorem charactersAreDrawn : Obligations.CharactersAreDrawn := by
  intro c s g base live
  obtain rfl : g = characterBase s c := base.trans (joinAddr_add_zoneOffset _ _ s).symm
  refine ⟨fun hole fits => ?holey, fun b solid narrow fits read => ?narrow,
    fun b b' solid wide fits read read' u drawn => ?wide⟩
  case holey => exact execCharptr_of_ok (drawCharacter_holey hole (charge_of_fits live fits))
  case narrow =>
    have kind : characterKind s = .graphicsIndirect := if_pos narrow
    have charged := charge_of_fits (s := s) (kind := characterKind s) (h := false) live (by rwa [kind])
    apply execCharptr_of_ok
    rw [drawCharacter_solid solid charged, kind, bytesPerCharacter, if_pos narrow]
    exact drawCharacterBytes_succ read
  case wide =>
    have isWide : ¬ s.reg.ctrl.charWidth = true := by simp [wide]
    have kind : characterKind s = .graphicsIndirectWide := if_neg isWide
    have charged := charge_of_fits (s := s) (kind := characterKind s) (h := false) live (by rwa [kind])
    subst drawn
    apply execCharptr_of_ok
    rw [drawCharacter_solid solid charged, kind, bytesPerCharacter, if_neg isWide]
    refine (drawCharacterBytes_succ (b := b) ?_).trans (drawCharacterBytes_succ (b := b') ?_)
    · exact read
    · rw [busByte_writeGraphicsByte]; exact read'

/-- Settles O13: a failing charge ends the character; a failing read is taken at the state the instruction began in. -/
theorem charactersAreTruncatedOrFault : Obligations.CharactersAreTruncatedOrFault := by
  refine fun c s => ⟨fun spent => ?spent, fun live short => ?short, fun live solid fits fails => ?first,
    fun b live solid wide fits read fails => ?second⟩
  case spent => exact execCharptr_of_ok (drawCharacter_unpaid (charge_of_exhausted spent _ _))
  case short => exact execCharptr_of_ok (drawCharacter_unpaid (charge_of_short live short))
  case first =>
    apply execCharptr_of_busError
    rw [drawCharacter_solid solid (charge_of_fits live fits)]
    obtain ⟨n, bytes⟩ : ∃ n, bytesPerCharacter s = n + 1 := by
      rw [bytesPerCharacter]; cases s.reg.ctrl.charWidth <;> exact ⟨_, rfl⟩
    exact (congrArg (drawCharacterBytes · _ _) bytes).trans (drawCharacterBytes_fails fails)
  case second =>
    apply execCharptr_of_busError
    rw [drawCharacter_solid solid (charge_of_fits live fits), bytesPerCharacter, if_neg (by simp [wide])]
    refine (drawCharacterBytes_succ (b := b) ?_).trans (drawCharacterBytes_fails ?_)
    · exact read
    · rw [busByte_writeGraphicsByte]; exact fails

end Sys2Proof.Machine
end

