-- ==== Sys2Proof/Proofs/Effects.lean ====
section
/-! What an instruction can do at all: every run that does not end raises the bus error of a read the bus does not answer
(`NamesFailingRead`), and every instruction answers a next state framed by its stream (`exec_cases`). -/
namespace Sys2Proof.Machine

/-! ## Runs that do not end -/

/-- Whatever stops `x` is a bus error at an address that the bus of `s` does not answer (R156). -/
def NamesFailingRead {α : Type} (s : State) (x : Except Halt α) : Prop :=
  ∀ h, x = .error h → ∃ f, h = .busError f ∧ busByte s f.addr = none

theorem namesFailingRead_ok {α : Type} (s : State) (r : α) : NamesFailingRead s (.ok r) := fun _ h => nomatch h

theorem namesFailingRead_fails {α : Type} {s : State} {a : Addr} {op : ReadOp} (fails : busByte s a = none) :
    NamesFailingRead (α := α) s (.error (.busError { kind := .busError, addr := a, op := op })) := by
  rintro _ ⟨⟩
  exact ⟨_, rfl, fails⟩

theorem namesFailingRead_busRead (op : ReadOp) (a : Addr) (s : State) : NamesFailingRead s (busRead op a s) := by
  cases read : busByte s a with
  | some b =>
    rw [busRead_answers read]
    exact namesFailingRead_ok s _
  | none =>
    rw [busRead_fails read]
    exact namesFailingRead_fails read

theorem NamesFailingRead.bind {α β : Type} {s : State} {x : Except Halt α} {f : α → Except Halt β}
    (first : NamesFailingRead s x) (rest : ∀ r, x = .ok r → NamesFailingRead s (f r)) : NamesFailingRead s (x >>= f) := by
  cases x with
  | error e =>
    intro h fails
    obtain rfl : e = h := Except.error.inj (show (Except.error e : Except Halt β) = .error h from fails)
    exact first e rfl
  | ok r => exact rest r rfl

/-- A later part of a run meets the same bus. -/
theorem NamesFailingRead.of_frame {α : Type} {s t : State} {x : Except Halt α} (frame : DmaFrame s t)
    (later : NamesFailingRead t x) : NamesFailingRead s x := by
  intro h fails
  obtain ⟨f, is, none⟩ := later h fails
  exact ⟨f, is, (busByte_congr frame.mem frame.busFaults _).symm.trans none⟩

theorem drawCharacterBytes_namesFailingRead (n : Nat) (a : Addr) (s : State) :
    NamesFailingRead s (drawCharacterBytes n a s) := by
  induction n generalizing a s with
  | zero => exact namesFailingRead_ok s s
  | succ n ih =>
    cases read : busByte s a with
    | none =>
      rw [drawCharacterBytes_fails read]
      exact namesFailingRead_fails read
    | some b =>
      rw [drawCharacterBytes_succ read]
      exact .of_frame ((reads_frame s _).trans (writeGraphicsByte_frame b _)).toDmaFrame (ih _ _)

theorem drawCharacter_namesFailingRead (c : Byte) (s : State) : NamesFailingRead s (drawCharacter c s) := by
  have frame := (charge_frame (characterKind s) (holey s (characterBase s c)) s).toDmaFrame
  cases charged : charge (characterKind s) (holey s (characterBase s c)) s with
  | mk paid t =>
    rw [charged] at frame
    cases paid
    · rw [drawCharacter_unpaid charged]
      exact namesFailingRead_ok s t
    · cases hole : holey s (characterBase s c)
      · rw [drawCharacter_solid hole (hole ▸ charged)]
        exact .of_frame frame (drawCharacterBytes_namesFailingRead _ _ t)
      · rw [drawCharacter_holey hole (hole ▸ charged)]
        exact namesFailingRead_ok s _

/-! ## Instructions -/

/-- An instruction that is no port access and no zone record: framed as the walk, or ended by a failing read (R158). -/
def WalkOrFault (s t : State) : Prop := WalkFrame s t ∨ ∃ f, busByte s f.addr = none ∧ t = takeBusError s f

theorem execCharptr_cases (c : Byte) (s : State) : ∃ t, exec (.charptr c) s = .next t ∧ WalkOrFault s t := by
  cases run : drawCharacter c s with
  | ok t => exact ⟨t, execCharptr_of_ok run, .inl (drawCharacter_frame run)⟩
  | error h =>
    obtain ⟨f, rfl, fails⟩ := drawCharacter_namesFailingRead c s h run
    exact ⟨_, execCharptr_of_busError run, .inr ⟨f, fails, rfl⟩⟩

/-- Every instruction answers a next state: a port access in its frame, a zone record in the zone, any other in the walk's. -/
theorem exec_cases (i : Instr) (s : State) : ∃ t, exec i s = .next t ∧
    (i.stream = .port ∧ PortFrame s t ∨ i.stream = .zoneList ∧ (∃ z, t = { s with zone := z }) ∨
      i.stream ≠ .port ∧ i.stream ≠ .zoneList ∧ WalkOrFault s t) := by
  by_cases port : i.stream = .port
  · obtain ⟨t, run, frame⟩ := exec_port port s
    exact ⟨t, run, .inl ⟨port, frame⟩⟩
  cases i with
  | zone => exact ⟨_, rfl, .inr (.inl ⟨rfl, _, rfl⟩)⟩
  | dlEnd =>
    exact ⟨_, rfl, .inr (.inr ⟨nofun, nofun, .inl (header_frame s _ fun _ => ⟨Nat.zero_le _, fun _ => by simp⟩)⟩)⟩
  | dlLong lo wm ind hi pal wraw hpos =>
    exact ⟨_, rfl, .inr (.inr ⟨nofun, nofun, .inl ((writeMode_frame s wm).trans
      (header_frame _ _ fun _ => ⟨(decodeWidth_bounds wraw).2, nofun⟩))⟩)⟩
  | dlShort lo pal wraw hi hpos =>
    exact ⟨_, rfl, .inr (.inr ⟨nofun, nofun, .inl (header_frame s _ fun _ => ⟨(decodeWidth_bounds wraw).2, nofun⟩)⟩)⟩
  | gfxWm0 =>
    exact ⟨_, rfl, .inr (.inr ⟨nofun, nofun, .inl ((writeCellsWm0_sameButCells ..).frame.trans (gfxIndex_frame _ _))⟩)⟩
  | gfxWm1 =>
    exact ⟨_, rfl, .inr (.inr ⟨nofun, nofun, .inl ((writeCellsWm1_sameButCells ..).frame.trans (gfxIndex_frame _ _))⟩)⟩
  | charptr c =>
    obtain ⟨t, run, cases⟩ := execCharptr_cases c s
    exact ⟨t, run, .inr (.inr ⟨nofun, nofun, cases⟩)⟩
  | _ => exact absurd rfl port

/-- Settles O17: `exec_cases`, less its frames. -/
theorem everyInstructionAnswersANextState : Obligations.EveryInstructionAnswersANextState := fun i s =>
  let ⟨t, run, _⟩ := exec_cases i s
  ⟨t, run⟩

/-- The fields of the state that no instruction changes (R16, R32, R45, R165). -/
structure InstrFrame (s t : State) : Prop where
  coord : t.coord = s.coord
  zoneValid : t.zoneValid = s.zoneValid
  writeSel : t.writeSel = s.writeSel
  readBuffer : readBuffer t = readBuffer s
  bus : ∀ a, busByte t a = busByte s a
  par : t.par = s.par
  inbox : t.inbox = s.inbox
  draws : t.draws = s.draws

theorem PortFrame.instrFrame {s t : State} (frame : PortFrame s t) : InstrFrame s t := by
  rw [frame]
  exact ⟨rfl, rfl, rfl, rfl, fun _ => rfl, rfl, rfl, rfl⟩

theorem WalkOrFault.instrFrame {s t : State} : WalkOrFault s t → InstrFrame s t
  | .inl walk => ⟨walk.coord, walk.zoneValid, walk.writeSel, walk.readBuffer, busByte_congr walk.mem walk.busFaults,
      walk.par, walk.inbox, walk.draws⟩
  | .inr ⟨_, _, taken⟩ => taken ▸ ⟨rfl, rfl, rfl, rfl, fun _ => rfl, rfl, rfl, rfl⟩

theorem WalkFrame.out {s t : State} (walk : WalkFrame s t) : t.out = s.out := by
  have line := walk.line
  have dmaConsumed := walk.dmaConsumed
  have dli := walk.dli
  have wsync := walk.wsync
  cases ht : t.out
  cases hs : s.out
  simp_all

/-- An instruction off the port keeps registers, outputs and `portData`. -/
theorem WalkOrFault.keeps_port {s t : State} : WalkOrFault s t → t.reg = s.reg ∧ t.out = s.out ∧ t.portData = s.portData
  | .inl walk => ⟨walk.reg, walk.out, walk.portData⟩
  | .inr ⟨_, _, taken⟩ => taken ▸ ⟨rfl, rfl, rfl⟩

/-- Settles O18: by the three frames of `exec_cases`. -/
theorem instructionsKeepWhatIsNotTheirs : Obligations.InstructionsKeepWhatIsNotTheirs := by
  intro i s t h
  obtain ⟨u, run, frames⟩ := exec_cases i s
  obtain rfl : t = u := Host.Outcome.next.inj (h.symm.trans run)
  have split : InstrFrame s t ∧ (i.stream = .port → PortFrame s t) ∧
      (i.stream ≠ .port → t.reg = s.reg ∧ t.out = s.out ∧ t.portData = s.portData) := by
    obtain ⟨port, frame⟩ | ⟨zone, z, rfl⟩ | ⟨notPort, -, walk⟩ := frames
    · exact ⟨frame.instrFrame, fun _ => frame, fun notPort => absurd port notPort⟩
    · exact ⟨⟨rfl, rfl, rfl, rfl, fun _ => rfl, rfl, rfl, rfl⟩, fun port => absurd (zone.symm.trans port) (by decide),
        fun _ => ⟨rfl, rfl, rfl⟩⟩
    · exact ⟨walk.instrFrame, fun port => absurd port notPort, fun _ => walk.keeps_port⟩
  obtain ⟨frame, port, offPort⟩ := split
  exact ⟨frame.coord, frame.zoneValid, frame.writeSel, frame.readBuffer, frame.bus, frame.par, frame.inbox, frame.draws,
    port, offPort⟩

/-! ## The sticky write mode (R28, R100) -/

theorem SameButCells.writeMode {s t : State} (same : SameButCells s t) : t.writeMode = s.writeMode := by
  obtain ⟨b, -, rfl⟩ := same
  exact setWriteBuffer_writeMode s b

@[simp] theorem writeGraphicsByte_writeMode (b : Byte) (s : State) : (writeGraphicsByte b s).writeMode = s.writeMode := by
  obtain ⟨t, same, drawn⟩ := writeGraphicsByte_cases b s
  rw [drawn, passBytes_writeMode, same.writeMode]

theorem drawCharacterBytes_writeMode {n : Nat} {a : Addr} {s t : State} (h : drawCharacterBytes n a s = .ok t) :
    t.writeMode = s.writeMode := by
  induction n generalizing a s with
  | zero => cases h; rfl
  | succ n ih =>
    cases read : busByte s a with
    | none => rw [drawCharacterBytes_fails read] at h; cases h
    | some b =>
      rw [drawCharacterBytes_succ read] at h
      simpa using ih h

theorem drawCharacter_writeMode {c : Byte} {s t : State} (h : drawCharacter c s = .ok t) : t.writeMode = s.writeMode := by
  have kept : (charge (characterKind s) (holey s (characterBase s c)) s).2.writeMode = s.writeMode := by rw [charge_eq]
  cases charged : charge (characterKind s) (holey s (characterBase s c)) s with
  | mk paid u =>
    rw [charged] at kept
    cases paid
    · rw [drawCharacter_unpaid charged] at h
      cases h
      exact kept
    · cases hole : holey s (characterBase s c)
      · rw [drawCharacter_solid hole (hole ▸ charged)] at h
        exact (drawCharacterBytes_writeMode h).trans kept
      · rw [drawCharacter_holey hole (hole ▸ charged)] at h
        cases h
        exact kept

theorem PortFrame.writeMode {s t : State} (frame : PortFrame s t) : t.writeMode = s.writeMode := by
  rw [frame]

theorem exec_keeps_writeMode {i : Instr} {s t : State}
    (notLong : ∀ lo wm ind hi pal wraw hpos, i ≠ .dlLong lo wm ind hi pal wraw hpos) (h : exec i s = .next t) :
    t.writeMode = s.writeMode := by
  by_cases port : i.stream = .port
  · obtain ⟨u, run, frame⟩ := exec_port port s
    cases run.symm.trans h
    exact frame.writeMode
  cases i with
  | dlLong => exact absurd rfl (notLong _ _ _ _ _ _ _)
  | zone | dlEnd | dlShort => cases h; rfl
  | gfxWm0 => cases h; exact (writeCellsWm0_sameButCells ..).writeMode
  | gfxWm1 => cases h; exact (writeCellsWm1_sameButCells ..).writeMode
  | charptr c =>
    obtain drawn | ⟨f, -, rfl⟩ := conclude_next.mp h
    · exact drawCharacter_writeMode drawn
    · rfl
  | _ => exact absurd rfl port

/-- Settles O19: the host's port access is no header, and its other moves but a reset leave the block alone. -/
theorem onlyLongHeadersWriteTheWriteMode : Obligations.OnlyLongHeadersWriteTheWriteMode := by
  refine ⟨fun lo wm ind hi pal wraw hpos s t h => ?long, fun i s t => exec_keeps_writeMode,
    fun m rest s t turns notReset notScanline h => ?host⟩
  case long => cases h; rfl
  case host =>
    rw [step_hostMove turns] at h
    cases m with
    | port o a =>
      obtain ⟨u, run, frame⟩ := exec_port (stream_decodePort o a) { s with inbox := rest }
      cases run.symm.trans h
      exact frame.writeMode
    | memWrite | busFail | busAnswer => cases h; rfl
    | reset => exact absurd rfl notReset
    | scanline => exact absurd rfl notScanline

end Sys2Proof.Machine
end

