-- ==== Sys2Proof/Proofs/DisplayList.lean ====
section
/-! The display-list walker: `DecodeHeader` read by read (R47, R96 to R99), where the walkers stand (R85, R93 to R95), and the
loop of R101 with its bound (R102). -/
namespace Sys2Proof.Machine

/-! ## Runs -/

theorem bind_of_ok {α β : Type} {x : Except Halt α} {r : α} (ends : x = .ok r) (f : α → Except Halt β) :
    (x >>= f) = f r := by
  rw [ends]; rfl

theorem bind_of_error {α β : Type} {x : Except Halt α} {h : Halt} (fails : x = .error h) (f : α → Except Halt β) :
    (x >>= f) = .error h := by
  rw [fails]; rfl

/-- Two continuations that agree where the first part ends give the same run. -/
theorem bind_congr_of_ok {α β : Type} {x : Except Halt α} {f g : α → Except Halt β} (agree : ∀ r, x = .ok r → f r = g r) :
    (x >>= f) = (x >>= g) := by
  cases x with
  | error h => rfl
  | ok r => exact agree r rfl

/-! ## `DecodeHeader` -/

section
variable {s : State} {m b0 b2 b3 b4 : Byte}

theorem fetchHeader_fails_first (fails : busByte s (s.dl.origin + 1) = none) :
    fetchHeader s = .error (.busError { kind := .busError, addr := s.dl.origin + 1, op := .headerRead }) := by
  rw [fetchHeader, busRead_fails fails]; rfl

theorem fetchHeader_end (read1 : busByte s (s.dl.origin + 1) = some m) (isEnd : classify m = .endOfList) :
    fetchHeader s = .ok (decodeEnd m, { s with reads := s.reads ++ [(s.dl.origin + 1, .headerRead)] }) := by
  simp only [fetchHeader, bind, Except.bind, busRead_answers read1, isEnd]

theorem fetchHeader_fails_second (read1 : busByte s (s.dl.origin + 1) = some m) (notEnd : classify m ≠ .endOfList)
    (fails : busByte s s.dl.origin = none) :
    fetchHeader s = .error (.busError { kind := .busError, addr := s.dl.origin, op := .headerRead }) := by
  cases cls : classify m with
  | endOfList => exact absurd cls notEnd
  | long | short =>
    simp only [fetchHeader, bind, Except.bind, busRead_answers read1, cls, busRead_noteReads_fails _ _ fails]

theorem fetchHeader_fails_third (read1 : busByte s (s.dl.origin + 1) = some m) (notEnd : classify m ≠ .endOfList)
    (read0 : busByte s s.dl.origin = some b0) (fails : busByte s (s.dl.origin + 2) = none) :
    fetchHeader s = .error (.busError { kind := .busError, addr := s.dl.origin + 2, op := .headerRead }) := by
  cases cls : classify m with
  | endOfList => exact absurd cls notEnd
  | long | short =>
    simp only [fetchHeader, bind, Except.bind, busRead_answers read1, cls, busRead_noteReads_answers _ _ read0,
      busRead_noteReads_fails _ _ fails]

theorem fetchHeader_fails_fourth (read1 : busByte s (s.dl.origin + 1) = some m) (notEnd : classify m ≠ .endOfList)
    (read0 : busByte s s.dl.origin = some b0) (read2 : busByte s (s.dl.origin + 2) = some b2)
    (fails : busByte s (s.dl.origin + 3) = none) :
    fetchHeader s = .error (.busError { kind := .busError, addr := s.dl.origin + 3, op := .headerRead }) := by
  cases cls : classify m with
  | endOfList => exact absurd cls notEnd
  | long | short =>
    simp only [fetchHeader, bind, Except.bind, busRead_answers read1, cls, busRead_noteReads_answers _ _ read0,
      busRead_noteReads_answers _ _ read2, busRead_noteReads_fails _ _ fails]

theorem fetchHeader_fails_fifth (read1 : busByte s (s.dl.origin + 1) = some m) (isLong : classify m = .long)
    (read0 : busByte s s.dl.origin = some b0) (read2 : busByte s (s.dl.origin + 2) = some b2)
    (read3 : busByte s (s.dl.origin + 3) = some b3) (fails : busByte s (s.dl.origin + 4) = none) :
    fetchHeader s = .error (.busError { kind := .busError, addr := s.dl.origin + 4, op := .headerRead }) := by
  simp only [fetchHeader, bind, Except.bind, busRead_answers read1, isLong, busRead_noteReads_answers _ _ read0,
    busRead_noteReads_answers _ _ read2, busRead_noteReads_answers _ _ read3, busRead_noteReads_fails _ _ fails]

theorem fetchHeader_long (read1 : busByte s (s.dl.origin + 1) = some m) (isLong : classify m = .long)
    (read0 : busByte s s.dl.origin = some b0) (read2 : busByte s (s.dl.origin + 2) = some b2)
    (read3 : busByte s (s.dl.origin + 3) = some b3) (read4 : busByte s (s.dl.origin + 4) = some b4) :
    fetchHeader s =
      .ok
        (decodeLong b0 m b2 b3 b4,
          { s with
            reads :=
              s.reads ++
                [(s.dl.origin + 1, .headerRead), (s.dl.origin, .headerRead), (s.dl.origin + 2, .headerRead),
                  (s.dl.origin + 3, .headerRead), (s.dl.origin + 4, .headerRead)] }) := by
  simp only [fetchHeader, bind, Except.bind, busRead_answers read1, isLong, busRead_noteReads_answers _ _ read0,
    busRead_noteReads_answers _ _ read2, busRead_noteReads_answers _ _ read3, busRead_noteReads_answers _ _ read4,
    List.append_assoc, List.cons_append, List.nil_append]

theorem fetchHeader_short (read1 : busByte s (s.dl.origin + 1) = some m) (isShort : classify m = .short)
    (read0 : busByte s s.dl.origin = some b0) (read2 : busByte s (s.dl.origin + 2) = some b2)
    (read3 : busByte s (s.dl.origin + 3) = some b3) :
    fetchHeader s =
      .ok
        (decodeShort b0 m b2 b3,
          { s with
            reads :=
              s.reads ++
                [(s.dl.origin + 1, .headerRead), (s.dl.origin, .headerRead), (s.dl.origin + 2, .headerRead),
                  (s.dl.origin + 3, .headerRead)] }) := by
  simp only [fetchHeader, bind, Except.bind, busRead_answers read1, isShort, busRead_noteReads_answers _ _ read0,
    busRead_noteReads_answers _ _ read2, busRead_noteReads_answers _ _ read3, List.append_assoc, List.cons_append,
    List.nil_append]

end

theorem decodeHeader_fails {s : State} {h : Halt} (fetch : fetchHeader s = .error h) : decodeHeader s = .error h :=
  bind_of_error fetch _

theorem decodeHeader_runs {s t : State} {i : Instr} (fetch : fetchHeader s = .ok (i, t)) : decodeHeader s = runInstr i t :=
  bind_of_ok fetch _

/-- Settles O31: read by read, in the order of `fetchHeader`. -/
theorem decodeHeaderFaultsAtTheFirstFailingRead : Obligations.DecodeHeaderFaultsAtTheFirstFailingRead := by
  rintro s a rfl
  refine ⟨fun fails => decodeHeader_fails (fetchHeader_fails_first fails), fun m read1 notEnd =>
    ⟨fun fails => ?second, fun read0 fails => ?third, fun read0 read2 fails => ?fourth,
      fun read0 read2 read3 fails isLong => ?fifth⟩⟩
  case second => exact decodeHeader_fails (fetchHeader_fails_second read1 notEnd fails)
  case third =>
    obtain ⟨b0, read0⟩ := Option.ne_none_iff_exists'.mp read0
    exact decodeHeader_fails (fetchHeader_fails_third read1 notEnd read0 fails)
  case fourth =>
    obtain ⟨b0, read0⟩ := Option.ne_none_iff_exists'.mp read0
    obtain ⟨b2, read2⟩ := Option.ne_none_iff_exists'.mp read2
    exact decodeHeader_fails (fetchHeader_fails_fourth read1 notEnd read0 read2 fails)
  case fifth =>
    obtain ⟨b0, read0⟩ := Option.ne_none_iff_exists'.mp read0
    obtain ⟨b2, read2⟩ := Option.ne_none_iff_exists'.mp read2
    obtain ⟨b3, read3⟩ := Option.ne_none_iff_exists'.mp read3
    exact decodeHeader_fails (fetchHeader_fails_fifth read1 isLong read0 read2 read3 fails)

/-- Settles O28: the four values are R58's end class, and DL_END is run after the one read. -/
theorem decodeHeaderOfAnEndSentinel : Obligations.DecodeHeaderOfAnEndSentinel := by
  intro s m noFault read1 value
  have isEnd := (headerClassesPartitionTheModeByte m).1.mpr value
  rw [decodeHeader_runs (fetchHeader_end read1 isEnd)]
  exact resume_ok.mpr ⟨rfl, noFault⟩

theorem decodeWidth_bitsOf (b : Byte) : decodeWidth (bitsOf b 0 5) = 32 - b.toNat % 32 := by
  rw [decodeWidth_eq, bitsOf, BitVec.extractLsb'_toNat, Nat.shiftRight_zero]

/-- Settles O29: DL_LONG is run after the five reads. -/
theorem decodeHeaderOfALongHeader : Obligations.DecodeHeaderOfALongHeader := by
  rintro s a b0 m b2 pw b4 noFault rfl mask read1 read0 read2 read3 read4
  rw [decodeHeader_runs (fetchHeader_long read1 (classify_eq_long_iff.mpr mask) read0 read2 read3 read4),
    ← decodeWidth_bitsOf]
  exact resume_ok.mpr ⟨rfl, noFault⟩

/-- Settles O30: DL_SHORT is run after the four reads. -/
theorem decodeHeaderOfAShortHeader : Obligations.DecodeHeaderOfAShortHeader := by
  rintro s a b0 m b2 b3 noFault rfl notEnd notLong read1 read0 read2 read3
  rw [decodeHeader_runs (fetchHeader_short read1 (classify_eq_short_iff.mpr ⟨notEnd, notLong⟩) read0 read2 read3),
    ← decodeWidth_bitsOf]
  exact resume_ok.mpr ⟨rfl, noFault⟩

/-! ## Where the walkers stand -/

/-- Settles O32: the pointers of two bytes are sums (R44). -/
theorem walkersFetchAtTheirPointers : Obligations.WalkersFetchAtTheirPointers := by
  refine fun s => ⟨?frame, ?zone, rfl⟩
  case frame => rw [← joinAddr_eq]; rfl
  case zone => rw [← joinAddr_eq]; rfl

/-! ## The loop (R101, R102) -/

theorem headerCost_eq (s : State) :
    eventCost s (headerKind s) false = if s.dl.isLong = true then s.par.cost.headerLong else s.par.cost.headerShort := by
  rw [eventCost, headerKind]
  cases s.dl.isLong <;> rfl

theorem walkLoop_end {n : Nat} {s : State} (isEnd : s.dl.isEnd = true) : walkLoop (n + 1) s = .ok s := by
  rw [walkLoop, if_pos isEnd]

theorem walkLoop_unpaid {n : Nat} {s t : State} (notEnd : s.dl.isEnd = false)
    (charged : charge (headerKind s) false s = (false, t)) : walkLoop (n + 1) s = .ok t := by
  rw [walkLoop, if_neg (by simp [notEnd]), charged]

theorem walkLoop_paid {n : Nat} {s t : State} (notEnd : s.dl.isEnd = false)
    (charged : charge (headerKind s) false s = (true, t)) :
    walkLoop (n + 1) s =
      (drawObject t >>= fun u => if u.exhausted then .ok u else (advance u >>= fun v => walkLoop n v)) := by
  rw [walkLoop, if_neg (by simp [notEnd]), charged]

/-- Settles O33: the header's charge is R108's, by its class. -/
theorem displayListLoopPasses : Obligations.DisplayListLoopPasses := by
  rintro n s cost live rfl
  rw [← headerCost_eq]
  exact ⟨walkLoop_end, fun notEnd short => walkLoop_unpaid notEnd (charge_of_short live short),
    fun notEnd fits => walkLoop_paid notEnd (charge_of_fits live fits)⟩

/-- A header's charge, if it fits, takes at least one cycle where header costs are positive (R102). -/
theorem charge_header_budget_lt {s t : State} (short : 1 ≤ s.par.cost.headerShort) (long : 1 ≤ s.par.cost.headerLong)
    (charged : charge (headerKind s) false s = (true, t)) : t.budget < s.budget := by
  have positive : 1 ≤ eventCost s (headerKind s) false := by
    rw [headerCost_eq]; split <;> assumption
  obtain ⟨-, e⟩ | ⟨-, fits, e⟩ | ⟨-, -, e⟩ := charge_cases (headerKind s) false s
  · cases e.symm.trans charged
  · cases e.symm.trans charged
    simp only
    omega
  · cases e.symm.trans charged

/-- Any two numbers of passes above the budget give the same walk: a pass that goes on has charged its header (R102). -/
theorem walkLoop_passes_irrelevant {n k : Nat} {s : State} (short : 1 ≤ s.par.cost.headerShort)
    (long : 1 ≤ s.par.cost.headerLong) (hn : s.budget < n) (hk : s.budget < k) : walkLoop n s = walkLoop k s := by
  induction n generalizing k s with
  | zero => omega
  | succ n ih =>
    obtain ⟨k, rfl⟩ : ∃ j, k = j + 1 := ⟨k - 1, by omega⟩
    cases isEnd : s.dl.isEnd with
    | true => rw [walkLoop_end isEnd, walkLoop_end isEnd]
    | false =>
      cases charged : charge (headerKind s) false s with
      | mk paid t =>
        have chargedFrame : WalkFrame s t := by simpa [charged] using charge_frame (headerKind s) false s
        cases paid with
        | false => rw [walkLoop_unpaid isEnd charged, walkLoop_unpaid isEnd charged]
        | true =>
          have spent := charge_header_budget_lt short long charged
          rw [walkLoop_paid isEnd charged, walkLoop_paid isEnd charged]
          refine bind_congr_of_ok fun u drawn => ?_
          split
          · rfl
          · refine bind_congr_of_ok fun v advanced => ?_
            have frame := (chargedFrame.trans (drawObject_frame drawn)).trans (advance_frame advanced)
            have later := ((drawObject_frame drawn).trans (advance_frame advanced)).budget
            exact ih (by rwa [frame.par]) (by rwa [frame.par]) (by omega) (by omega)

theorem stepScanline_of_zeroHeaderCost {s : State} (noFault : s.fault = none)
    (zero : s.par.cost.headerShort = 0 ∨ s.par.cost.headerLong = 0) : stepScanline s = .refused .zeroHeaderCost := by
  have refused : headerCostsPositive s.par = false := by
    rw [headerCostsPositive, costOf, costOf]
    obtain zero | zero := zero <;> simp [zero]
  rw [stepScanline, noFault, refused]
  rfl

/-- Settles O34: the budget bounds the passes, and the refusal comes before any of them. -/
theorem displayListWalkTerminates : Obligations.DisplayListWalkTerminates := by
  refine ⟨fun s n short long enough => walkLoop_passes_irrelevant short long enough (Nat.lt_succ_self _),
    fun s turn noFault zero => ?_⟩
  rw [step_blockTurn turn]
  exact stepScanline_of_zeroHeaderCost noFault zero

end Sys2Proof.Machine
end

