-- ==== Sys2Proof/Proofs/Objects.lean ====
section
/-! Objects (R116 to R120, R127), the cells they resolve to (R132, R133), and the fetching of every kind of instruction: what a
walker reads it decodes and runs. -/
namespace Sys2Proof.Machine

/-! ## Holey addresses (R119, R120) -/

theorem holey_iff (s : State) (a : Addr) :
    holey s a = true ↔
      0x8000 ≤ a.toNat ∧
        ((s.zone.hole16 = true ∧ a.toNat.testBit 12 = true) ∨ (s.zone.hole8 = true ∧ a.toNat.testBit 11 = true)) := by
  simp [holey, BitVec.le_def, BitVec.getLsbD]

/-- Settles O36: 0x8000 itself has neither bit set, so the strict comparison changes nothing. -/
theorem holeyLaw : Obligations.HoleyLaw := by
  refine fun s a => ⟨holey_iff s a, (holey_iff s a).trans ⟨?_, fun ⟨above, bits⟩ => ⟨above.le, bits⟩⟩⟩
  rintro ⟨high, bits⟩
  refine ⟨lt_of_le_of_ne high fun edge => ?_, bits⟩
  have bit12 : Nat.testBit 0x8000 12 = false := by decide
  have bit11 : Nat.testBit 0x8000 11 = false := by decide
  simp [← edge, bit12, bit11] at bits

theorem drawDirect_holey {s : State} (hole : holey s (directBase s) = true) :
    drawDirect s = .ok (charge .graphicsDirect true s).2 := if_pos hole

theorem drawDirect_solid {s : State} (solid : holey s (directBase s) = false) :
    drawDirect s = drawDirectBytes s.dl.width (directBase s) s := if_neg (by simp [solid])

theorem drawObject_direct {s : State} (direct : s.dl.indirect = false) : drawObject s = drawDirect { s with gfxIndex := 0 } :=
  if_neg (by simp [direct])

theorem drawObject_indirect {s : State} (indirect : s.dl.indirect = true) :
    drawObject s = drawCharacters s.dl.width (headerPointer s) { s with gfxIndex := 0 } := if_pos indirect

/-- Settles O37: the one charge of the object, with its two outcomes. -/
theorem holeyObjectsReadAndWriteNothing : Obligations.HoleyObjectsReadAndWriteNothing := by
  intro s direct live hole
  have drawn : drawObject s = .ok (charge .graphicsDirect true { s with gfxIndex := 0 }).2 :=
    (drawObject_direct direct).trans (drawDirect_holey hole)
  rw [drawn]
  refine ⟨fun fits => ?fits, fun short => ?short⟩
  case fits => rw [charge_of_fits (s := { s with gfxIndex := 0 }) (kind := .graphicsDirect) (h := true) live fits]; rfl
  case short => rw [charge_of_short (s := { s with gfxIndex := 0 }) (kind := .graphicsDirect) (h := true) live short]

/-! ## Fetching -/

section
variable {s : State} {n : Nat} {a : Addr}

theorem drawDirectBytes_unpaid {t : State} (charged : charge .graphicsDirect false s = (false, t)) :
    drawDirectBytes (n + 1) a s = .ok t := by
  rw [drawDirectBytes, charged]

theorem drawDirectBytes_paid {t : State} (charged : charge .graphicsDirect false s = (true, t)) :
    drawDirectBytes (n + 1) a s =
      (busRead .graphicsRead a t >>= fun r =>
        runInstr (decodeGraphics r.2.writeMode r.1) r.2 >>= drawDirectBytes n (a + 1)) := by
  rw [drawDirectBytes, charged]

theorem drawCharacters_succ {c : Byte} (read : busByte s a = some c) :
    drawCharacters (n + 1) a s =
      (runInstr (.charptr c) { s with reads := s.reads ++ [(a, .charPtrRead)] } >>= fun t =>
        if t.exhausted then .ok t else drawCharacters n (a + 1) t) :=
  bind_of_ok (busRead_answers read) _

theorem drawCharacters_fails (fails : busByte s a = none) :
    drawCharacters (n + 1) a s = .error (.busError { kind := .busError, addr := a, op := .charPtrRead }) :=
  bind_of_error (busRead_fails fails) _

end

theorem decode_graphics (w : Bool) (b : Byte) : decode (.graphics w) [b] = .ok (decodeGraphics w b, []) := rfl

theorem decodeHeader_runs_decoded {s : State} {i : Instr} {rest : List Byte} {b0 b1 b2 b3 b4 : Byte}
    (read0 : busByte s s.dl.origin = some b0) (read1 : busByte s (s.dl.origin + 1) = some b1)
    (read2 : busByte s (s.dl.origin + 2) = some b2) (read3 : busByte s (s.dl.origin + 3) = some b3)
    (read4 : busByte s (s.dl.origin + 4) = some b4) (decoded : decode .displayList [b0, b1, b2, b3, b4] = .ok (i, rest)) :
    ∃ l, decodeHeader s = resume (exec i { s with reads := s.reads ++ l }) := by
  rw [decode, decodeHeaderBytes] at decoded
  cases cls : classify b1 with
  | endOfList =>
    simp only [cls] at decoded
    cases decoded
    exact ⟨_, decodeHeader_runs (fetchHeader_end read1 cls)⟩
  | long =>
    simp only [cls] at decoded
    cases decoded
    exact ⟨_, decodeHeader_runs (fetchHeader_long read1 cls read0 read2 read3 read4)⟩
  | short =>
    simp only [cls] at decoded
    cases decoded
    exact ⟨_, decodeHeader_runs (fetchHeader_short read1 cls read0 read2 read3)⟩

/-- Settles O23: each walker's read, decode and run, and its two ways to stop short. -/
theorem walkersRunTheDecodedInstruction : Obligations.WalkersRunTheDecodedInstruction := by
  refine ⟨fun s i rest b0 b1 b2 b3 b4 => decodeHeader_runs_decoded, fun s i b0 b1 b2 read0 read1 read2 decoded => ?record,
    fun s n a b i live fits read decoded => ?byte, fun s n a c i read decoded => ?index, fun s n a live => ?stops,
    fun s n a => drawCharacters_fails⟩
  case record =>
    cases decoded
    exact ⟨_, readZoneRecord_runs (fetchZone_answers read0 read1 read2)⟩
  case byte =>
    cases (decode_graphics s.writeMode b).symm.trans decoded
    rw [drawDirectBytes_paid (charge_of_fits live fits)]
    refine (bind_of_ok (busRead_answers (b := b) ?_) _).trans rfl
    exact read
  case index =>
    cases decoded
    exact drawCharacters_succ read
  case stops =>
    refine ⟨fun short => drawDirectBytes_unpaid (charge_of_short live short), fun fits fails => ?_⟩
    rw [drawDirectBytes_paid (charge_of_fits live fits)]
    refine bind_of_error (busRead_fails ?_) _
    exact fails

/-! ## The reads of a direct object (R117, R127) -/

/-- The addresses of `k` graphics bytes from `base` up. -/
def graphicsReads (base : Addr) (k : Nat) : List (Addr × ReadOp) :=
  (List.range k).map fun j => (base + BitVec.ofNat 16 j, ReadOp.graphicsRead)

theorem graphicsReads_succ (a : Addr) (k : Nat) :
    graphicsReads a (k + 1) = (a, .graphicsRead) :: graphicsReads (a + 1) k := by
  have next (j : Nat) : a + BitVec.ofNat 16 (j + 1) = a + 1 + BitVec.ofNat 16 j := by
    rw [Nat.add_comm, ← BitVec.ofNat_add_ofNat, BitVec.add_assoc]; rfl
  rw [graphicsReads, List.range_succ_eq_map, List.map_cons, List.map_map]
  exact congrArg₂ List.cons (by simp) (List.map_congr_left fun j _ => congrArg (·, ReadOp.graphicsRead) (next j))

/-- A graphics byte that is read inside a step without a fault is drawn. -/
theorem drawDirectBytes_answers {s : State} {n : Nat} {a : Addr} {b : Byte} (noFault : s.fault = none)
    (live : s.exhausted = false) (fits : s.par.cost.graphicsDirect ≤ s.budget) (read : busByte s a = some b) :
    drawDirectBytes (n + 1) a s =
      drawDirectBytes n (a + 1)
        (writeGraphicsByte b
          { s with budget := s.budget - s.par.cost.graphicsDirect, reads := s.reads ++ [(a, .graphicsRead)] }) := by
  obtain ⟨-, -, byte, -⟩ := walkersRunTheDecodedInstruction
  rw [byte s n a b _ live fits read (decode_graphics s.writeMode b)]
  have drawn := exec_decodeGraphics b
    { s with budget := s.budget - s.par.cost.graphicsDirect, reads := s.reads ++ [(a, .graphicsRead)] }
  refine bind_of_ok (resume_ok.mpr ⟨drawn, ?_⟩) _
  rw [(writeGraphicsByte_frame b _).fault]
  exact noFault

@[simp] theorem writeGraphicsByte_gfxIndex (b : Byte) (s : State) : (writeGraphicsByte b s).gfxIndex = s.gfxIndex + 1 := by
  obtain ⟨t, ⟨c, -, rfl⟩, drawn⟩ := writeGraphicsByte_cases b s
  rw [drawn, passBytes_gfxIndex, setWriteBuffer_gfxIndex]

@[simp] theorem writeGraphicsByte_reads (b : Byte) (s : State) : (writeGraphicsByte b s).reads = s.reads := by
  obtain ⟨t, ⟨c, -, rfl⟩, drawn⟩ := writeGraphicsByte_cases b s
  rw [drawn, passBytes_reads, setWriteBuffer_reads]

@[simp] theorem writeGraphicsByte_budget (b : Byte) (s : State) : (writeGraphicsByte b s).budget = s.budget := by
  obtain ⟨t, ⟨c, -, rfl⟩, drawn⟩ := writeGraphicsByte_cases b s
  rw [drawn, passBytes_budget, setWriteBuffer_budget]

@[simp] theorem writeGraphicsByte_exhausted (b : Byte) (s : State) : (writeGraphicsByte b s).exhausted = s.exhausted := by
  obtain ⟨t, ⟨c, -, rfl⟩, drawn⟩ := writeGraphicsByte_cases b s
  rw [drawn, passBytes_exhausted, setWriteBuffer_exhausted]

/-- `t` comes from `s` by `k` of at most `n` bytes of an object from `a` up: all `n`, or as many as the budget paid for. -/
structure DrewBytes (n k : Nat) (a : Addr) (s t : State) : Prop where
  le : k ≤ n
  reads : t.reads = s.reads ++ graphicsReads a k
  gfxIndex : t.gfxIndex = s.gfxIndex + k
  paid : k * s.par.cost.graphicsDirect ≤ s.budget
  ends : (k = n ∧ t.exhausted = false ∧ t.budget = s.budget - k * s.par.cost.graphicsDirect) ∨
    (k < n ∧ t.exhausted = true ∧ t.budget = 0 ∧ s.budget < (k + 1) * s.par.cost.graphicsDirect)

theorem drewBytes_none {a : Addr} {s : State} (live : s.exhausted = false) : DrewBytes 0 0 a s s :=
  ⟨le_rfl, by simp [graphicsReads], rfl, by simp, .inl ⟨rfl, live, by simp⟩⟩

theorem drewBytes_truncated {n : Nat} {a : Addr} {s : State} (short : s.budget < s.par.cost.graphicsDirect) :
    DrewBytes (n + 1) 0 a s { s with budget := 0, exhausted := true } :=
  ⟨Nat.zero_le _, by simp [graphicsReads], rfl, by simp, .inr ⟨Nat.succ_pos n, rfl, rfl, by simpa using short⟩⟩

/-- One byte, then the rest. -/
theorem drewBytes_succ {n k : Nat} {a : Addr} {s u t : State} (fits : s.par.cost.graphicsDirect ≤ s.budget)
    (reads : u.reads = s.reads ++ [(a, .graphicsRead)]) (gfxIndex : u.gfxIndex = s.gfxIndex + 1) (par : u.par = s.par)
    (budget : u.budget = s.budget - s.par.cost.graphicsDirect) (rest : DrewBytes n k (a + 1) u t) :
    DrewBytes (n + 1) (k + 1) a s t where
  le := Nat.succ_le_succ rest.le
  reads := by rw [rest.reads, reads, graphicsReads_succ, List.append_assoc]; rfl
  gfxIndex := by rw [rest.gfxIndex, gfxIndex]; omega
  paid := by
    have paid := rest.paid
    rw [par, budget] at paid
    rw [Nat.succ_mul]; omega
  ends := by
    have ends := rest.ends
    rw [par, budget] at ends
    simp only [Nat.succ_mul] at ends ⊢
    obtain ⟨all, live, budget⟩ | ⟨some, spent, budget, short⟩ := ends
    · exact .inl ⟨by omega, live, by omega⟩
    · exact .inr ⟨by omega, spent, budget, by omega⟩

theorem drawDirectBytes_drewBytes {n : Nat} {a : Addr} {s t : State} (noFault : s.fault = none)
    (live : s.exhausted = false) (h : drawDirectBytes n a s = .ok t) : ∃ k, DrewBytes n k a s t := by
  induction n generalizing a s with
  | zero =>
    cases h
    exact ⟨0, drewBytes_none live⟩
  | succ n ih =>
    obtain short | fits := Nat.lt_or_ge s.budget s.par.cost.graphicsDirect
    · rw [drawDirectBytes_unpaid (charge_of_short live short)] at h
      cases h
      exact ⟨0, drewBytes_truncated short⟩
    · cases read : busByte s a with
      | none =>
        obtain ⟨-, -, -, -, stops, -⟩ := walkersRunTheDecodedInstruction
        rw [(stops s n a live).2 fits read] at h
        cases h
      | some b =>
        rw [drawDirectBytes_answers noFault live fits read] at h
        obtain ⟨k, rest⟩ := ih (by rw [(writeGraphicsByte_frame b _).fault]; exact noFault) (by simpa using live) h
        refine ⟨k + 1, drewBytes_succ fits ?_ ?_ ?_ ?_ rest⟩
        · simp
        · simp
        · exact (writeGraphicsByte_frame b _).par
        · simp

/-- Settles O38: by induction on the bytes left of a direct object. -/
theorem objectsReadFromTheirPointers : Obligations.ObjectsReadFromTheirPointers := by
  refine ⟨fun s indirect => ?indirect, fun a s => rfl, fun s t base noFault live direct start solid h => ?direct⟩
  case indirect => rw [← joinAddr_eq]; exact drawObject_indirect indirect
  case direct =>
    obtain rfl : base = directBase s := start.trans (joinAddr_add_zoneOffset _ _ s).symm
    rw [drawObject_direct direct, drawDirect_solid (s := { s with gfxIndex := 0 }) solid] at h
    obtain ⟨k, drew⟩ := drawDirectBytes_drewBytes (s := { s with gfxIndex := 0 }) noFault live h
    exact ⟨k, drew.le, drew.reads, drew.gfxIndex.trans (Nat.zero_add k), drew.paid, drew.ends⟩

/-! ## What a cell resolves to (R131 to R139) -/

/-- Settles O39: read modes 00 and 11 are the model's own functions, whatever the two open ones are. -/
theorem cellsResolveByTheReadMode : Obligations.CellsResolveByTheReadMode := by
  refine fun reg p c => ⟨rfl, rfl, fun mode => ?mode00, fun mode => ?mode11⟩
  case mode00 =>
    simp only [resolveCell, mode]
    exact ⟨rfl, rfl, rfl, rfl⟩
  case mode11 =>
    simp only [resolveCell, mode]
    rfl

end Sys2Proof.Machine
end

