-- ==== Sys2Proof/Proofs/Countdown.lean ====
section
/-! The zone countdown: what a loaded record leaves (R86, R88), the countdown law (R89), and the DLI of a record just loaded
(R81, R82). -/
namespace Sys2Proof.Machine

/-! ## Loading a record -/

/-- What `ReadZoneRecord` leaves: the record at the walker's place as the zone, and its reads noted; nothing else (R86). -/
structure LoadedRecord (s t : State) : Prop where
  same : t = { s with reads := t.reads, zone := t.zone }
  origin : t.zone.origin = s.zone.origin
  seq : t.zone.seq = s.zone.seq
  record : s.zoneIsRecord t.zone

/-- `ReadZoneRecord` loads the record at the walker's place, or raises the bus error of its first failing read. -/
theorem readZoneRecord_cases {s : State} (noFault : s.fault = none) :
    (∃ t, readZoneRecord s = .ok t ∧ LoadedRecord s t) ∨
    ∃ a, busByte s a = none ∧ readZoneRecord s = .error (.busError { kind := .busError, addr := a, op := .zoneRead }) := by
  obtain ⟨first, second, third, loads⟩ := readZoneRecordLoadsOrFaults s s.zone.origin noFault rfl
  cases read0 : busByte s s.zone.origin with
  | none => exact .inr ⟨_, read0, first read0⟩
  | some b0 =>
    have answers0 := Option.ne_none_iff_exists'.mpr ⟨b0, read0⟩
    cases read1 : busByte s (s.zone.origin + 1) with
    | none => exact .inr ⟨_, read1, second answers0 read1⟩
    | some b1 =>
      have answers1 := Option.ne_none_iff_exists'.mpr ⟨b1, read1⟩
      cases read2 : busByte s (s.zone.origin + 2) with
      | none => exact .inr ⟨_, read2, third answers0 answers1 read2⟩
      | some b2 =>
        exact .inl ⟨_, loads b0 b1 b2 read0 read1 read2,
          ⟨rfl, rfl, rfl, b0, read0, rfl, rfl, rfl, rfl, rfl, read1, read2⟩⟩

theorem readZoneRecord_loaded {s t : State} (noFault : s.fault = none) (h : readZoneRecord s = .ok t) :
    LoadedRecord s t := by
  obtain ⟨u, load, loaded⟩ | ⟨a, -, fails⟩ := readZoneRecord_cases noFault
  · cases load.symm.trans h
    exact loaded
  · cases fails.symm.trans h

/-! ## The countdown law (R89) -/

theorem advanceTimes_succ {n : Nat} {s u : State} {b : Bool} (advanced : advanceIfExpired s = .ok (b, u)) :
    advanceTimes (n + 1) s = (advanceTimes n u).map fun r => (b :: r.1, r.2) := by
  refine (bind_of_ok advanced _).trans ?_
  change (advanceTimes n u >>= fun r => .ok (b :: r.1, r.2)) = _
  cases advanceTimes n u <;> rfl

theorem remaining_pred {r : BitVec 4} (left : r ≠ 0) : (r - 1).toNat = r.toNat - 1 := by
  have : r.toNat ≠ 0 := fun zero => left (BitVec.eq_of_toNat_eq zero)
  bv_omega

/-- While lines are left, each call answers 0 and counts down by one. -/
theorem advanceTimes_counts {k : Nat} {s : State} (left : k ≤ s.zone.remaining.toNat) :
    advanceTimes k s =
      .ok
        (List.replicate k false,
          { s with zone := { s.zone with remaining := BitVec.ofNat 4 (s.zone.remaining.toNat - k) } }) := by
  induction k generalizing s with
  | zero => simp [advanceTimes]
  | succ k ih =>
    have nonzero : s.zone.remaining ≠ 0 := by
      intro zero
      rw [zero] at left
      exact absurd left (by simp)
    have pred := remaining_pred nonzero
    rw [advanceTimes_succ (advanceIfExpired_of_remaining_ne_zero nonzero), ih (by simp only [pred]; omega)]
    simp only [Except.map, pred, Nat.sub_sub, Nat.add_comm 1 k, List.replicate_succ]

/-- Once no line is left, the next call answers 1 and loads the record 3 bytes on. -/
theorem advanceTimes_loads {n : Nat} {s t : State} (lines : s.zone.remaining.toNat = n)
    (load : readZoneRecord (atNextZone { s with zone := { s.zone with remaining := 0 } }) = .ok t) :
    advanceTimes (n + 1) s = .ok (List.replicate n false ++ [true], t) := by
  induction n generalizing s with
  | zero =>
    have expired : s.zone.remaining = 0 := BitVec.eq_of_toNat_eq lines
    rw [← expired] at load
    have advanced : advanceIfExpired s = .ok (true, t) := by
      rw [advanceIfExpired_of_remaining_zero expired]
      exact congrArg (Except.map _) load
    rw [advanceTimes_succ advanced]
    rfl
  | succ n ih =>
    have nonzero : s.zone.remaining ≠ 0 := by
      intro zero
      rw [zero] at lines
      cases lines
    rw [advanceTimes_succ (advanceIfExpired_of_remaining_ne_zero nonzero)]
    refine congrArg (Except.map _) (ih ?_ ?_)
    · simp only [remaining_pred nonzero]; omega
    · exact load

/-- Settles O27: the zone has just been loaded, so the lines left are its height. -/
theorem zonesLastHeightPlusOneCalls : Obligations.ZonesLastHeightPlusOneCalls := by
  intro s noFault loaded
  rw [← loaded]
  refine ⟨fun k => advanceTimes_counts, fun b0 b1 b2 read0 read1 read2 => ?_⟩
  obtain ⟨-, -, -, loads⟩ := readZoneRecordLoadsOrFaults
    (atNextZone { s with zone := { s.zone with remaining := 0 } }) (s.zone.origin + 3) noFault rfl
  have second : s.zone.origin + 3 + 1 = s.zone.origin + 4 := by rw [BitVec.add_assoc]; rfl
  have third : s.zone.origin + 3 + 2 = s.zone.origin + 5 := by rw [BitVec.add_assoc]; rfl
  exact ⟨_, advanceTimes_loads rfl (loads b0 b1 b2 read0 (second ▸ read1) (third ▸ read2)), rfl, rfl, rfl, rfl, rfl⟩

/-! ## The DLI request (R81, R82) -/

@[simp] theorem charge_zone (kind : EventKind) (h : Bool) (s : State) : (charge kind h s).2.zone = s.zone :=
  (charge_frame kind h s).sameZone

@[simp] theorem raiseDli_zone (s : State) : (raiseDli s).zone = s.zone := charge_zone ..

@[simp] theorem raiseDli_dli (s : State) : (raiseDli s).out.dli = true := (charge_frame ..).dli

@[simp] theorem raiseDli_zoneValid (s : State) : (raiseDli s).zoneValid = s.zoneValid := (charge_frame ..).zoneValid

/-- The three outcomes of the request's charge. -/
theorem raiseDli_cases (s : State) :
    (s.exhausted = true → raiseDli s = { s with out := { s.out with dli := true } }) ∧
    (s.exhausted = false → s.par.cost.interruptOverhead ≤ s.budget →
      raiseDli s =
        { s with out := { s.out with dli := true }, budget := s.budget - s.par.cost.interruptOverhead }) ∧
    (s.exhausted = false → s.budget < s.par.cost.interruptOverhead →
      raiseDli s = { s with out := { s.out with dli := true }, budget := 0, exhausted := true }) := by
  obtain ⟨spent, fits, short⟩ :=
    chargeLaw .interruptOverhead false { s with out := { s.out with dli := true } } s.par.cost.interruptOverhead rfl
  refine ⟨fun h => ?_, fun h h' => ?_, fun h h' => ?_⟩
  · rw [raiseDli, spent h]
  · rw [raiseDli, fits h h']
  · rw [raiseDli, short h h']

/-- What the countdown leaves of `r`, the answer of `AdvanceIfExpired`. -/
def afterAdvance (r : Bool × State) : State := if r.1 = true ∧ r.2.zone.dli = true then raiseDli r.2 else r.2

theorem countdown_eq (s : State) : countdown s = (advanceIfExpired s).map afterAdvance := by
  rw [countdown]
  cases advanceIfExpired s with
  | error h => rfl
  | ok r => simp only [bind, Except.bind, Except.map, afterAdvance, Bool.and_eq_true]

/-- Settles O46: the three outcomes of the request's charge, and the countdown as one `AdvanceIfExpired`. -/
theorem raiseDliLaw : Obligations.RaiseDliLaw := by
  intro s
  obtain ⟨spent, fits, short⟩ := raiseDli_cases s
  exact ⟨spent, fits, short, countdown_eq s⟩

/-- A countdown that ends: one line less, or the next record loaded and its DLI raised (R81, R88). -/
theorem countdown_cases {s t : State} (noFault : s.fault = none) (h : countdown s = .ok t) :
    (s.zone.remaining ≠ 0 ∧ t = { s with zone := { s.zone with remaining := s.zone.remaining - 1 } }) ∨
    (s.zone.remaining = 0 ∧ ∃ u, LoadedRecord (atNextZone s) u ∧ t = if u.zone.dli then raiseDli u else u) := by
  rw [countdown_eq] at h
  by_cases expired : s.zone.remaining = 0
  · rw [advanceIfExpired_of_remaining_zero expired] at h
    cases load : readZoneRecord (atNextZone s) with
    | error e =>
      rw [load] at h
      cases h
    | ok u =>
      rw [load] at h
      cases h
      exact .inr ⟨expired, u, readZoneRecord_loaded noFault load, by simp [afterAdvance]⟩
  · rw [advanceIfExpired_of_remaining_ne_zero expired] at h
    cases h
    exact .inl ⟨expired, by simp [afterAdvance]⟩

end Sys2Proof.Machine
end

