-- ==== Sys2Proof/Proofs/Scanline.lean ====
section
/-! The scanline step part by part (R76): the frame start (R78), a line's DMA (R77, R80, R81), its output and its end. -/
namespace Sys2Proof.Machine

/-! ## The parts and the step -/

theorem scanline_eq (s : State) :
    scanline s = (frameStart (lineStart s) >>= fun u => lineDma u >>= fun v => .ok (endLine v)) := rfl

theorem scanline_of_parts {s u v : State} (start : frameStart (lineStart s) = .ok u) (dma : lineDma u = .ok v) :
    scanline s = .ok (endLine v) := by
  rw [scanline_eq, bind_of_ok start, bind_of_ok dma]

/-- A scanline step that may run answers what its body does (R75, R102, R158). -/
theorem step_concludes {s : State} (turn : s.blockTurn) (can : s.canStep) :
    step s = conclude s.afterTurn (scanline s.afterTurn) := by
  obtain ⟨noFault, costs⟩ := can
  rw [step_blockTurn turn, stepScanline, afterTurn_fault, noFault, afterTurn_par, costs]
  rfl

theorem step_of_parts {s u v : State} (turn : s.blockTurn) (can : s.canStep)
    (start : frameStart (lineStart s.afterTurn) = .ok u) (dma : lineDma u = .ok v) : step s = .next (endLine v) := by
  rw [step_concludes turn can, scanline_of_parts start dma]
  rfl

/-! ## The frame start (R78) -/

theorem frameStart_of_otherLine {s : State} (other : s.coord.scanline ≠ s.par.firstDmaLine) : frameStart s = .ok s :=
  if_neg other

theorem dmaOn_eq_false {s : State} (off : s.reg.ctrl.dmaLevel ≠ 2#2) : dmaOn s = false := by
  simpa [dmaOn] using off

theorem dmaOn_eq_true {s : State} (on : s.reg.ctrl.dmaLevel = 2#2) : dmaOn s = true := by
  rw [dmaOn, on]; rfl

theorem frameStart_of_dmaOff {s : State} (first : s.coord.scanline = s.par.firstDmaLine) (off : dmaOn s = false) :
    frameStart s = .ok { s with zoneValid := false } := by
  rw [frameStart, if_pos first, if_neg (by simp [off])]

/-- The state after `BeginFrame` left `t`: a zone in force, and the end of the blank charged. -/
def blankEnded (t : State) : State := (charge .endOfBlank false { t with zoneValid := true }).2

theorem blankEnded_frame (t : State) : WalkFrame { t with zoneValid := true } (blankEnded t) := charge_frame ..

theorem frameStart_of_dmaOn {s : State} (first : s.coord.scanline = s.par.firstDmaLine) (on : dmaOn s = true) :
    frameStart s =
      (beginFrame s >>= fun t =>
        .ok (if (blankEnded t).par.dliOnFirstZone && (blankEnded t).zone.dli then raiseDli (blankEnded t)
          else blankEnded t)) := by
  rw [frameStart, if_pos first, if_pos on]
  rfl

/-- The frame start with DMA on, once its record is loaded. -/
theorem frameStart_of_loaded {s t : State} (first : s.coord.scanline = s.par.firstDmaLine) (on : dmaOn s = true)
    (begins : beginFrame s = .ok t) :
    frameStart s =
      .ok (if s.par.dliOnFirstZone = true ∧ t.zone.dli = true then raiseDli (blankEnded t) else blankEnded t) := by
  have par : (blankEnded t).par = s.par := (blankEnded_frame t).par.trans (beginFrame_frame begins).par
  have zone : (blankEnded t).zone = t.zone := (blankEnded_frame t).sameZone
  rw [frameStart_of_dmaOn first on, bind_of_ok begins, par, zone]
  simp only [Bool.and_eq_true]

/-! ## The DMA of a line (R77, R80, R81) -/

theorem lineDma_of_off {s : State} (off : dmaRuns s = false) : lineDma s = .ok s := if_neg (by simp [off])

theorem lineDma_of_on {s : State} (on : dmaRuns s = true) :
    lineDma s = (walkDisplayList (charge (zoneStartupKind s) false s).2 >>= countdown) := if_pos on

/-- R77: DMA needs the window, the level and a zone. -/
theorem dmaRuns_eq_false {s : State}
    (off : s.coord.scanline < s.par.firstDmaLine ∨ s.par.lastDmaLine < s.coord.scanline ∨ s.reg.ctrl.dmaLevel ≠ 2#2 ∨
      s.zoneValid = false) : dmaRuns s = false := by
  rw [← or_assoc, ← inDmaWindow_eq_false_iff] at off
  obtain window | level | zone := off
  · simp [dmaRuns, window]
  · simp [dmaRuns, dmaOn_eq_false level]
  · simp [dmaRuns, zone]

/-! ## Fetching on a line -/

/-- Settles O22: the port access is the host's move of that step. -/
theorem stepRunsTheWaitingPortAccess : Obligations.StepRunsTheWaitingPortAccess := fun _ _ _ _ turns => step_hostMove turns

theorem walkDisplayList_of_live {s : State} (live : s.exhausted = false) :
    walkDisplayList s = (beginZone s >>= fun t => walkLoop (t.budget + 1) t) := if_neg (by simp [live])

/-- Settles O24: the line is no frame start, so its walk begins in `lineCharged`, at the display list's first header. -/
theorem stepRunsTheFirstHeaderOfTheLine : Obligations.StepRunsTheFirstHeaderOfTheLine := by
  rintro s i rest a b0 b1 b2 b3 b4 turn can other on paid rfl read0 read1 read2 read3 read4 decoded
  have bus (a : Addr) : busByte (atDisplayList (lineCharged s.afterTurn)) a = busByte s a :=
    busByte_congr (charge_frame ..).mem (charge_frame ..).busFaults a
  have origin : (atDisplayList (lineCharged s.afterTurn)).dl.origin = displayListStart s :=
    congrArg (fun z : Zone => joinAddr z.dlHi z.dlLo) (charge_zone ..)
  rw [← origin] at read0 read1 read2 read3 read4
  rw [← bus] at read0 read1 read2 read3 read4
  obtain ⟨l, header⟩ := decodeHeader_runs_decoded read0 read1 read2 read3 read4 decoded
  refine ⟨(lineCharged s.afterTurn).reads ++ l, ?_⟩
  rw [step_concludes turn can, scanline_eq, bind_of_ok (frameStart_of_otherLine (s := lineStart s.afterTurn) other),
    lineDma_of_on (s := lineStart s.afterTurn) on]
  change conclude _ ((walkDisplayList (lineCharged s.afterTurn) >>= countdown) >>= _) = _
  rw [walkDisplayList_of_live paid, beginZone, header]
  simp only [bind_assoc]
  rfl

/-! ## What a completed line leaves -/

/-- The DMA of a completed line as one part: its frame, and the state at the end. -/
theorem step_completed_framed {s t : State} (turn : s.blockTurn) (h : step s = .next t) (ends : t.fault = none) :
    ∃ v, (frameStart (lineStart s.afterTurn) >>= lineDma) = .ok v ∧ DmaFrame (lineStart s.afterTurn) v ∧
      t = endLine v := by
  obtain ⟨u, v, start, dma, rfl⟩ := step_completed turn h ends
  exact ⟨v, (bind_of_ok start _).trans dma, (frameStart_frame start).trans (lineDma_frame dma), rfl⟩

theorem step_completed_line {s t : State} (turn : s.blockTurn) (h : step s = .next t) (ends : t.fault = none) :
    t.out.line =
      some
        { pairs := (readBuffer s).map (resolveCell s.reg), colourKill := s.reg.ctrl.colourKill,
          border := s.reg.ctrl.border, lineIndex := s.coord.scanline } := by
  obtain ⟨v, -, frame, rfl⟩ := step_completed_framed turn h ends
  rw [endLine_out, frame.line]
  rfl

/-- Settles O40: the DMA keeps the line, the selector and the coordinates, which the end of the line turns over. -/
theorem scanlineOutputIsTheReadBuffer : Obligations.ScanlineOutputIsTheReadBuffer := by
  intro s t turn noFault h ends
  refine ⟨step_completed_line turn h ends, ?_⟩
  obtain ⟨v, -, frame, rfl⟩ := step_completed_framed turn h ends
  refine ⟨?_, (endLine_buffers v).2, ?_⟩
  · rw [endLine_writeSel, frame.writeSel]; rfl
  · rw [endLine_coord]
    exact tick_coord_congr frame.coord frame.par

theorem readBuffer_congr {s t : State} (buf0 : t.buf0 = s.buf0) (buf1 : t.buf1 = s.buf1) (sel : t.writeSel = s.writeSel) :
    readBuffer t = readBuffer s := by
  rw [readBuffer, readBuffer, buf0, buf1, sel]

/-- Settles O41: the buffer filled by one step is the read buffer of the next. -/
theorem linesAreOutputOneStepLater : Obligations.LinesAreOutputOneStepLater := by
  intro s t t' u turn noFault h ends buf0 buf1 sel turn' noFault' h' ends'
  obtain ⟨v, dma, frame, rfl⟩ := step_completed_framed turn h ends
  refine ⟨v, dma, ?_⟩
  rw [step_completed_line turn' h' ends', readBuffer_congr buf0 buf1 sel, (endLine_buffers v).1]
  rfl

/-- Settles O47: the line's budget starts at `DMA_MAX_CYCLES` and is 0 once a charge failed. -/
theorem dmaConsumedIsTheBudgetSpent : Obligations.DmaConsumedIsTheBudgetSpent := by
  intro s t turn noFault h ends
  obtain ⟨v, -, frame, rfl⟩ := step_completed_framed turn h ends
  have par : v.par = s.par := frame.par
  have le : v.budget ≤ s.par.dmaMaxCycles := frame.budget
  have zero := frame.exhaustedZero fun spent => nomatch spent
  simp only [endLine_out, endLine_budget, endLine_exhausted, par]
  exact ⟨by omega, fun spent => by rw [zero spent]; rfl⟩

/-! ## Lines without DMA -/

/-- What a step leaves whose line runs no DMA, `u` being the line after its frame start. -/
theorem step_of_noDma {s u : State} (turn : s.blockTurn) (can : s.canStep)
    (start : frameStart (lineStart s.afterTurn) = .ok u) (off : dmaRuns u = false) : step s = .next (endLine u) :=
  step_of_parts turn can start (lineDma_of_off off)

/-- Settles O42: neither the frame start nor the DMA runs. -/
theorem linesWithoutDmaReadNothing : Obligations.LinesWithoutDmaReadNothing := by
  intro s turn can other off
  have start := frameStart_of_otherLine (s := lineStart s.afterTurn) other
  refine ⟨_, step_of_noDma turn can start (dmaRuns_eq_false (s := lineStart s.afterTurn) off), ?_⟩
  simp [endLine_buffers, can.1]

theorem firstDmaLine_dmaOff {s : State} (turn : s.blockTurn) (can : s.canStep)
    (first : s.coord.scanline = s.par.firstDmaLine) (off : s.reg.ctrl.dmaLevel ≠ 2#2) :
    step s = .next (endLine { lineStart s.afterTurn with zoneValid := false }) :=
  step_of_noDma turn can (frameStart_of_dmaOff (s := lineStart s.afterTurn) first (dmaOn_eq_false off))
    (dmaRuns_eq_false (.inr (.inr (.inr rfl))))

/-- Settles O43: the DMA level chooses between the two cases of `frameStart`. -/
theorem frameStartLaw : Obligations.FrameStartLaw := by
  refine ⟨fun s turn can first off => ⟨_, firstDmaLine_dmaOff turn can first off, ?off⟩, fun s first on => ⟨?fails, ?loads⟩⟩
  case off => simp [can.1]
  case fails =>
    intro h begins
    rw [frameStart_of_dmaOn first (dmaOn_eq_true on), bind_of_error begins]
  case loads =>
    rintro t _ begins rfl
    exact frameStart_of_loaded first (dmaOn_eq_true on) begins

end Sys2Proof.Machine
end

