-- ==== Sys2Proof/Proofs/DmaLines.lean ====
section
/-! DMA lines, `FIRST_DMA_LINE` included: how a line counts its zone down (R80, R81), and where it raises the DLI (R82, R162,
R163). -/
namespace Sys2Proof.Machine

/-! ## The parts of a line that end, case by case -/

/-- The first record's DLI is raised if `DLI_ON_FIRST_ZONE` allows it (R78, R82). -/
def frameBegun (s t : State) : State :=
  if s.par.dliOnFirstZone = true ∧ t.zone.dli = true then raiseDli (blankEnded t) else blankEnded t

theorem frameStart_cases {s u : State} (noFault : s.fault = none) (h : frameStart s = .ok u) :
    (s.coord.scanline ≠ s.par.firstDmaLine ∧ u = s) ∨
    (s.coord.scanline = s.par.firstDmaLine ∧ dmaOn s = false ∧ u = { s with zoneValid := false }) ∨
    (s.coord.scanline = s.par.firstDmaLine ∧ dmaOn s = true ∧
      ∃ t, LoadedRecord (atZoneList s) t ∧ u = frameBegun s t) := by
  by_cases first : s.coord.scanline = s.par.firstDmaLine
  · cases on : dmaOn s with
    | false =>
      rw [frameStart_of_dmaOff first on] at h
      cases h
      exact .inr (.inl ⟨first, rfl, rfl⟩)
    | true =>
      cases begins : beginFrame s with
      | error e =>
        rw [frameStart_of_dmaOn first on, bind_of_error begins] at h
        cases h
      | ok t =>
        rw [frameStart_of_loaded first on begins] at h
        cases h
        exact .inr (.inr ⟨first, rfl, t, readZoneRecord_loaded noFault begins, rfl⟩)
  · rw [frameStart_of_otherLine first] at h
    cases h
    exact .inl ⟨first, rfl⟩

theorem lineDma_cases {u v : State} (h : lineDma u = .ok v) :
    (dmaRuns u = false ∧ v = u) ∨
    (dmaRuns u = true ∧ ∃ w, walkDisplayList (charge (zoneStartupKind u) false u).2 = .ok w ∧ WalkFrame u w ∧
      countdown w = .ok v) := by
  cases on : dmaRuns u with
  | false =>
    rw [lineDma_of_off on] at h
    cases h
    exact .inl ⟨rfl, rfl⟩
  | true =>
    rw [lineDma_of_on on] at h
    obtain ⟨w, walk, h⟩ := bind_ok.mp h
    exact .inr ⟨rfl, w, walk, (charge_frame ..).trans (walkDisplayList_frame walk), h⟩

/-! ## The state after the frame start -/

@[simp] theorem frameBegun_zone (s t : State) : (frameBegun s t).zone = t.zone := by
  rw [frameBegun]
  split <;> simp [(blankEnded_frame t).sameZone]

@[simp] theorem frameBegun_zoneValid (s t : State) : (frameBegun s t).zoneValid = true := by
  rw [frameBegun]
  split <;> simp [(blankEnded_frame t).zoneValid]

theorem frameBegun_dli (s t : State) (clear : t.out.dli = false) :
    (frameBegun s t).out.dli = (s.par.dliOnFirstZone && t.zone.dli) := by
  rw [frameBegun]
  split
  · next raised => simp [raised]
  · next notRaised =>
    rw [(blankEnded_frame t).dli, clear]
    exact (Bool.eq_false_iff.mpr (by simpa using notRaised)).symm

/-- With a zone in force and DMA on, a first DMA line runs its DMA unless the window is empty (R77, R78). -/
theorem dmaRuns_of_frameBegun {s u : State} (first : s.coord.scanline = s.par.firstDmaLine) (on : dmaOn s = true)
    (frame : DmaFrame s u) (valid : u.zoneValid = true) :
    dmaRuns u = decide (s.par.firstDmaLine ≤ s.par.lastDmaLine) := by
  have level : dmaOn u = true := by rw [dmaOn, frame.reg]; exact on
  simp [dmaRuns, inDmaWindow, level, valid, frame.coord, frame.par, first]

/-! ## The countdown of a line -/

theorem LoadedRecord.zoneIsRecord_of_frame {s w u : State} (load : LoadedRecord (atNextZone w) u)
    (frame : DmaFrame s w) : s.zoneIsRecord u.zone := by
  have bus (a : Addr) : busByte (atNextZone w) a = busByte s a := busByte_congr frame.mem frame.busFaults a
  simpa only [State.zoneIsRecord, bus] using load.record

/-- The zone after a line's DMA, from the zone after its frame start (R81, R88). -/
theorem lineDma_zone {u v : State} (noFault : u.fault = none) (h : lineDma u = .ok v) :
    (dmaRuns u = true →
      (u.zone.remaining ≠ 0 → v.zone = { u.zone with remaining := u.zone.remaining - 1 }) ∧
      (u.zone.remaining = 0 →
        v.zone.origin = u.zone.origin + 3 ∧ v.zone.seq = u.zone.seq + 1 ∧ u.zoneIsRecord v.zone)) ∧
    (dmaRuns u = false → v.zone = u.zone) := by
  obtain ⟨off, rfl⟩ | ⟨on, w, -, walk, count⟩ := lineDma_cases h
  · exact ⟨fun on => absurd on (by simp [off]), fun _ => rfl⟩
  · refine ⟨fun _ => ?_, fun off => absurd on (by simp [off])⟩
    rw [← walk.sameZone]
    obtain ⟨left, rfl⟩ | ⟨expired, x, load, rfl⟩ := countdown_cases (walk.fault.trans noFault) count
    · exact ⟨fun _ => rfl, fun expired => absurd expired left⟩
    · have zone : (if x.zone.dli then raiseDli x else x).zone = x.zone := by split <;> simp
      rw [zone]
      exact ⟨fun left => absurd expired left,
        fun _ => ⟨load.origin, load.seq, load.zoneIsRecord_of_frame walk.toDmaFrame⟩⟩

/-- Settles O44: the zone after the frame start, then the countdown of the line's DMA. -/
theorem everyDmaLineCountsTheZoneDown : Obligations.EveryDmaLineCountsTheZoneDown := by
  intro s t turn noFault h ends
  obtain ⟨u, v, start, dma, rfl⟩ := step_completed turn h ends
  have frame := frameStart_frame start
  refine ⟨u, start, fun other => ?other, fun first level => ?first, ?count⟩
  case other =>
    rw [frameStart_of_otherLine (s := lineStart s.afterTurn) other] at start
    cases start
    exact ⟨rfl, rfl⟩
  case first =>
    obtain ⟨other, -⟩ | ⟨-, off, -⟩ | ⟨-, on, x, load, rfl⟩ :=
      frameStart_cases (s := lineStart s.afterTurn) noFault start
    · exact absurd first other
    · exact nomatch (dmaOn_eq_true (s := lineStart s.afterTurn) level).symm.trans off
    · rw [frameBegun_zone]
      exact ⟨load.origin.trans (joinAddr_eq _ _), load.seq, load.record,
        dmaRuns_of_frameBegun (s := lineStart s.afterTurn) first on frame (frameBegun_zoneValid _ _)⟩
  case count =>
    have record (z : Zone) : u.zoneIsRecord z ↔ s.zoneIsRecord z := by
      have bus (a : Addr) : busByte u a = busByte s a := busByte_congr frame.mem frame.busFaults a
      simp only [State.zoneIsRecord, bus]
    simpa only [endLine_zone, record] using lineDma_zone (frame.fault.trans noFault) dma

/-! ## The DLI of a line -/

/-- The countdown of `w` has loaded a record whose bit asks for the DLI. -/
def Requests (w v : State) : Prop := w.zone.remaining = 0 ∧ v.zone.dli = true

/-- The budget at the end of a line whose walk left `w`: the overhead of a request, or the walk's own (R163). -/
structure Overhead (w v : State) : Prop where
  spent : Requests w v → w.exhausted = true → v.budget = w.budget ∧ v.exhausted = true
  fits : Requests w v → w.exhausted = false → w.par.cost.interruptOverhead ≤ w.budget →
    v.budget = w.budget - w.par.cost.interruptOverhead ∧ v.exhausted = false
  short : Requests w v → w.exhausted = false → w.budget < w.par.cost.interruptOverhead →
    v.budget = 0 ∧ v.exhausted = true
  none : ¬ Requests w v → v.budget = w.budget ∧ v.exhausted = w.exhausted

theorem overhead_of_raiseDli {w x : State} (budget : x.budget = w.budget) (exhausted : x.exhausted = w.exhausted)
    (par : x.par = w.par) (requests : Requests w (raiseDli x)) : Overhead w (raiseDli x) := by
  obtain ⟨spent, fits, short⟩ := raiseDli_cases x
  rw [budget, exhausted, par] at fits short
  rw [exhausted] at spent
  refine ⟨fun _ h => ?_, fun _ h h' => ?_, fun _ h h' => ?_, fun notRequests => absurd requests notRequests⟩
  · rw [spent h]; exact ⟨budget, h⟩
  · rw [fits h h']; exact ⟨rfl, h⟩
  · rw [short h h']; exact ⟨rfl, rfl⟩

theorem overhead_of_noRequest {w v : State} (budget : v.budget = w.budget) (exhausted : v.exhausted = w.exhausted)
    (noRequest : ¬ Requests w v) : Overhead w v :=
  ⟨fun h => absurd h noRequest, fun h => absurd h noRequest, fun h => absurd h noRequest, fun _ => ⟨budget, exhausted⟩⟩

/-- The countdown raises the DLI exactly if it requests it, and charges it then. -/
theorem countdown_dli {w v : State} (noFault : w.fault = none) (h : countdown w = .ok v) :
    (v.out.dli = true ↔ w.out.dli = true ∨ Requests w v) ∧ Overhead w v := by
  obtain ⟨left, rfl⟩ | ⟨expired, x, load, rfl⟩ := countdown_cases noFault h
  · have noRequest : ¬ Requests w { w with zone := { w.zone with remaining := w.zone.remaining - 1 } } :=
      fun requests => left requests.1
    exact ⟨(or_iff_left noRequest).symm, overhead_of_noRequest rfl rfl noRequest⟩
  · have budget : x.budget = w.budget := by rw [load.same]; rfl
    have exhausted : x.exhausted = w.exhausted := by rw [load.same]; rfl
    have out : x.out = w.out := by rw [load.same]; rfl
    have par : x.par = w.par := by rw [load.same]; rfl
    cases dli : x.zone.dli with
    | true =>
      have requests : Requests w (raiseDli x) := ⟨expired, by simpa using dli⟩
      simp only [if_true]
      exact ⟨by simp [requests], overhead_of_raiseDli budget exhausted par requests⟩
    | false =>
      have noRequest : ¬ Requests w x := fun requests => nomatch dli.symm.trans requests.2
      simp only [Bool.false_eq_true, if_false]
      exact ⟨by simp [noRequest, out], overhead_of_noRequest budget exhausted noRequest⟩

/-- Settles O45: before the DMA no request but the frame start's, and then the countdown's, charged after the walk. -/
theorem dliIsRaisedOnTheLastLineBefore : Obligations.DliIsRaisedOnTheLastLineBefore := by
  intro s t turn noFault h ends
  obtain ⟨u, v, start, dma, rfl⟩ := step_completed turn h ends
  have frame := frameStart_frame start
  have other : s.coord.scanline ≠ s.par.firstDmaLine → u.out.dli = false ∧ u.zone = s.zone ∧ dmaRuns u = dmaRuns s := by
    intro other
    rw [frameStart_of_otherLine (s := lineStart s.afterTurn) other] at start
    cases start
    exact ⟨rfl, rfl, rfl⟩
  have first : s.coord.scanline = s.par.firstDmaLine → u.out.dli = (dmaOn s && s.par.dliOnFirstZone && u.zone.dli) := by
    intro first
    obtain ⟨other, -⟩ | ⟨-, off, rfl⟩ | ⟨-, on, x, load, rfl⟩ :=
      frameStart_cases (s := lineStart s.afterTurn) noFault start
    · exact absurd first other
    · have off : dmaOn s = false := off
      simp [off]
    · have on : dmaOn s = true := on
      rw [frameBegun_dli _ _ (by rw [load.same]; rfl), frameBegun_zone, on]
      rfl
  obtain ⟨off, rfl⟩ | ⟨on, w, walked, walk, count⟩ := lineDma_cases dma
  · refine ⟨v, v, start, fun on => absurd on (by simp [off]), fun _ => rfl, other, first, ?_⟩
    simp [off]
  · obtain ⟨raised, overhead⟩ := countdown_dli (walk.fault.trans (frame.fault.trans noFault)) count
    have par : w.par = s.par := walk.par.trans frame.par
    have requests : Requests w v ↔ dmaRuns u = true ∧ u.zone.remaining = 0 ∧ v.zone.dli = true := by
      simp [Requests, on, walk.sameZone]
    refine ⟨u, w, start, fun _ => walked, fun off => absurd on (by simp [off]), other, first, ?_⟩
    simp only [endLine_out, endLine_zone, endLine_budget, endLine_exhausted, ← requests, ← walk.dli, ← par]
    exact ⟨raised, fun asks => ⟨overhead.spent asks, overhead.fits asks, overhead.short asks⟩, overhead.none⟩

end Sys2Proof.Machine
end

