-- ==== Sys2Proof/Proofs/Faults.lean ====
section
/-! Bus errors of a scanline step (R155 to R159): each names a read the bus did not answer, part by part; the step is rolled
back; and the block is stuck until a reset. -/
namespace Sys2Proof.Machine

/-! ## Every part of a scanline step names a failing read -/

section
variable {β : Type} {s : State}

theorem namesFailingRead_busRead_bind {op : ReadOp} {a : Addr} {f : Byte × State → Except Halt β}
    (rest : ∀ r, WalkFrame s r.2 → NamesFailingRead r.2 (f r)) : NamesFailingRead s (busRead op a s >>= f) :=
  (namesFailingRead_busRead op a s).bind fun r read =>
    .of_frame (busRead_frame read).toDmaFrame (rest r (busRead_frame read))

/-- A framed part of a step, then the rest of it. -/
theorem NamesFailingRead.bind_framed {x : Run} {f : State → Except Halt β} (first : NamesFailingRead s x)
    (framed : ∀ t, x = .ok t → DmaFrame s t) (rest : ∀ t, DmaFrame s t → NamesFailingRead t (f t)) :
    NamesFailingRead s (x >>= f) :=
  first.bind fun t ends => .of_frame (framed t ends) (rest t (framed t ends))

theorem runInstr_namesFailingRead (noFault : s.fault = none) (i : Instr) : NamesFailingRead s (runInstr i s) := by
  obtain ⟨t, run, frames⟩ := exec_cases i s
  have ends : t.fault = none ∨ ∃ f, busByte s f.addr = none ∧ t = takeBusError s f := by
    obtain ⟨-, frame⟩ | ⟨-, z, rfl⟩ | ⟨-, -, walk | fails⟩ := frames
    · rw [frame]; exact .inl noFault
    · exact .inl noFault
    · exact .inl (walk.fault.trans noFault)
    · exact .inr fails
  obtain ends | ⟨f, fails, rfl⟩ := ends
  · rw [runInstr, resume_ok.mpr ⟨run, ends⟩]
    exact namesFailingRead_ok s t
  · intro h taken
    rw [runInstr, run] at taken
    cases taken
    exact ⟨f, rfl, fails⟩

theorem drawDirectBytes_namesFailingRead {n : Nat} {a : Addr} (noFault : s.fault = none) :
    NamesFailingRead s (drawDirectBytes n a s) := by
  induction n generalizing a s with
  | zero => exact namesFailingRead_ok s s
  | succ n ih =>
    have frame := charge_frame .graphicsDirect false s
    cases charged : charge .graphicsDirect false s with
    | mk paid t =>
      rw [charged] at frame
      cases paid
      · rw [drawDirectBytes_unpaid charged]
        exact namesFailingRead_ok s t
      · rw [drawDirectBytes_paid charged]
        refine .of_frame frame.toDmaFrame (namesFailingRead_busRead_bind fun r read => ?_)
        have noFault : r.2.fault = none := (frame.trans read).fault.trans noFault
        refine (runInstr_namesFailingRead noFault _).bind_framed
          (fun u run => (runInstr_walk run (.inr (.inr ⟨_, decodeGraphics_stream _ _⟩))).toDmaFrame) fun u drawn => ?_
        exact ih (drawn.fault.trans noFault)

theorem drawCharacters_namesFailingRead {n : Nat} {a : Addr} (noFault : s.fault = none) :
    NamesFailingRead s (drawCharacters n a s) := by
  induction n generalizing a s with
  | zero => exact namesFailingRead_ok s s
  | succ n ih =>
    refine namesFailingRead_busRead_bind fun r read => ?_
    have noFault : r.2.fault = none := read.fault.trans noFault
    refine (runInstr_namesFailingRead noFault _).bind_framed
      (fun u run => (runInstr_walk run (.inr (.inl rfl))).toDmaFrame) fun u drawn => ?_
    split
    · exact namesFailingRead_ok u u
    · exact ih (drawn.fault.trans noFault)

theorem drawObject_namesFailingRead (noFault : s.fault = none) : NamesFailingRead s (drawObject s) := by
  cases indirect : s.dl.indirect with
  | true =>
    rw [drawObject_indirect indirect]
    exact .of_frame (gfxIndex_frame s 0).toDmaFrame (drawCharacters_namesFailingRead noFault)
  | false =>
    rw [drawObject_direct indirect]
    cases hole : holey s (directBase s) with
    | true =>
      rw [drawDirect_holey (s := { s with gfxIndex := 0 }) hole]
      exact namesFailingRead_ok s _
    | false =>
      rw [drawDirect_solid (s := { s with gfxIndex := 0 }) hole]
      exact .of_frame (gfxIndex_frame s 0).toDmaFrame (drawDirectBytes_namesFailingRead noFault)

theorem fetchHeader_namesFailingRead : NamesFailingRead s (fetchHeader s) := by
  unfold fetchHeader
  refine namesFailingRead_busRead_bind fun r _ => ?_
  cases cls : classify r.1 with
  | endOfList =>
    simp only [cls]
    exact namesFailingRead_ok _ _
  | long =>
    simp only [cls]
    exact namesFailingRead_busRead_bind fun _ _ => namesFailingRead_busRead_bind fun _ _ =>
      namesFailingRead_busRead_bind fun _ _ => namesFailingRead_busRead_bind fun _ _ => namesFailingRead_ok _ _
  | short =>
    simp only [cls]
    exact namesFailingRead_busRead_bind fun _ _ => namesFailingRead_busRead_bind fun _ _ =>
      namesFailingRead_busRead_bind fun _ _ => namesFailingRead_ok _ _

theorem decodeHeader_namesFailingRead (noFault : s.fault = none) : NamesFailingRead s (decodeHeader s) :=
  fetchHeader_namesFailingRead.bind fun _ fetched =>
    have frame := (fetchHeader_frame fetched).1
    .of_frame frame.toDmaFrame (runInstr_namesFailingRead (frame.fault.trans noFault) _)

theorem beginZone_namesFailingRead (noFault : s.fault = none) : NamesFailingRead s (beginZone s) :=
  decodeHeader_namesFailingRead (s := atDisplayList s) noFault

theorem advance_namesFailingRead (noFault : s.fault = none) : NamesFailingRead s (advance s) :=
  decodeHeader_namesFailingRead (s := atNextHeader s) noFault

theorem walkLoop_namesFailingRead {n : Nat} (noFault : s.fault = none) : NamesFailingRead s (walkLoop n s) := by
  induction n generalizing s with
  | zero => exact namesFailingRead_ok s s
  | succ n ih =>
    cases isEnd : s.dl.isEnd with
    | true =>
      rw [walkLoop_end isEnd]
      exact namesFailingRead_ok s s
    | false =>
      have frame := charge_frame (headerKind s) false s
      cases charged : charge (headerKind s) false s with
      | mk paid t =>
        rw [charged] at frame
        have noFault : t.fault = none := frame.fault.trans noFault
        cases paid
        · rw [walkLoop_unpaid isEnd charged]
          exact namesFailingRead_ok s t
        · rw [walkLoop_paid isEnd charged]
          refine .of_frame frame.toDmaFrame ((drawObject_namesFailingRead noFault).bind_framed
            (fun u drawn => (drawObject_frame drawn).toDmaFrame) fun u drawn => ?_)
          have noFault : u.fault = none := drawn.fault.trans noFault
          split
          · exact namesFailingRead_ok u u
          · exact (advance_namesFailingRead noFault).bind_framed
              (fun v advanced => (advance_frame advanced).toDmaFrame) fun v advanced => ih (advanced.fault.trans noFault)

theorem walkDisplayList_namesFailingRead (noFault : s.fault = none) : NamesFailingRead s (walkDisplayList s) := by
  cases live : s.exhausted with
  | true =>
    rw [walkDisplayList, if_pos live]
    exact namesFailingRead_ok s s
  | false =>
    rw [walkDisplayList_of_live live]
    exact (beginZone_namesFailingRead noFault).bind_framed
      (fun t begun => (beginZone_frame begun).toDmaFrame) fun t begun =>
        walkLoop_namesFailingRead (begun.fault.trans noFault)

theorem readZoneRecord_namesFailingRead (noFault : s.fault = none) : NamesFailingRead s (readZoneRecord s) := by
  obtain ⟨t, load, -⟩ | ⟨a, none, fails⟩ := readZoneRecord_cases noFault
  · rw [load]
    exact namesFailingRead_ok s t
  · rw [fails]
    exact namesFailingRead_fails none

theorem frameStart_namesFailingRead (noFault : s.fault = none) : NamesFailingRead s (frameStart s) := by
  by_cases first : s.coord.scanline = s.par.firstDmaLine
  · cases on : dmaOn s with
    | false =>
      rw [frameStart_of_dmaOff first on]
      exact namesFailingRead_ok s _
    | true =>
      rw [frameStart_of_dmaOn first on]
      have begins : NamesFailingRead s (beginFrame s) := readZoneRecord_namesFailingRead (s := atZoneList s) noFault
      exact begins.bind fun t _ => namesFailingRead_ok s _
  · rw [frameStart_of_otherLine first]
    exact namesFailingRead_ok s s

theorem countdown_namesFailingRead (noFault : s.fault = none) : NamesFailingRead s (countdown s) := by
  rw [countdown_eq]
  by_cases expired : s.zone.remaining = 0
  · rw [advanceIfExpired_of_remaining_zero expired]
    have load : NamesFailingRead s (readZoneRecord (atNextZone s)) :=
      readZoneRecord_namesFailingRead (s := atNextZone s) noFault
    cases run : readZoneRecord (atNextZone s) with
    | error h =>
      rintro _ ⟨⟩
      exact load h run
    | ok t => exact namesFailingRead_ok s _
  · rw [advanceIfExpired_of_remaining_ne_zero expired]
    exact namesFailingRead_ok s _

theorem lineDma_namesFailingRead (noFault : s.fault = none) : NamesFailingRead s (lineDma s) := by
  cases on : dmaRuns s with
  | false =>
    rw [lineDma_of_off on]
    exact namesFailingRead_ok s s
  | true =>
    rw [lineDma_of_on on]
    have frame := charge_frame (zoneStartupKind s) false s
    exact .of_frame frame.toDmaFrame ((walkDisplayList_namesFailingRead (frame.fault.trans noFault)).bind_framed
      (fun t walked => (walkDisplayList_frame walked).toDmaFrame) fun t walked =>
        countdown_namesFailingRead (walked.fault.trans (frame.fault.trans noFault)))

theorem scanline_namesFailingRead (noFault : s.fault = none) : NamesFailingRead s (scanline s) := by
  rw [scanline_eq]
  have start : NamesFailingRead (lineStart s) (scanline s) :=
    (frameStart_namesFailingRead (s := lineStart s) noFault).bind_framed (fun t => frameStart_frame) fun t started =>
      (lineDma_namesFailingRead (started.fault.trans noFault)).bind fun u _ => namesFailingRead_ok t _
  exact start

end

/-! ## The step -/

theorem busByte_eq_none_iff {s : State} {a : Addr} : busByte s a = none ↔ a.toNat ∈ s.busFaults := by
  simp [busByte]

/-- A step that ends with a fault has taken the bus error of its line (R158). -/
theorem step_faulted {s t : State} (turn : s.blockTurn) (h : step s = .next t) (faulted : t.fault ≠ none) :
    ∃ f, scanline s.afterTurn = .error (.busError f) ∧ t = takeBusError s.afterTurn f := by
  rw [step_blockTurn turn] at h
  obtain ⟨noFault, -, completed | fails⟩ := stepScanline_next.mp h
  · exact absurd ((scanline_fault completed).trans noFault) faulted
  · exact fails

/-- Settles O49: a step that faulted is `takeBusError` of its start. -/
theorem busErrorsRollTheStepBack : Obligations.BusErrorsRollTheStepBack := by
  intro s t turn noFault h faulted
  obtain ⟨f, -, rfl⟩ := step_faulted turn h faulted
  rfl

/-- Settles O50: the record is the bus error the line raised, which names a failing read. -/
theorem recordedFaultsNameAFailingRead : Obligations.RecordedFaultsNameAFailingRead := by
  intro s t f turn noFault h recorded
  obtain ⟨g, fails, rfl⟩ := step_faulted turn h (by rw [recorded]; nofun)
  cases recorded
  obtain ⟨_, ⟨⟩, none⟩ := scanline_namesFailingRead (s := s.afterTurn) noFault _ fails
  exact ⟨none, busByte_eq_none_iff.mp none⟩

end Sys2Proof.Machine
end

