-- ==== Sys2Proof/Proofs/HostMoves.lean ====
section
/-! The host's side (R50, R159, R165, R169): its moves and what they leave alone, their order among the scanline steps, memory
writes, the WSYNC pulse, and resets. -/
namespace Sys2Proof.Machine

/-! ## What a turn changes (R165) -/

/-- A completed scanline step, or the bus error it took, keeps what the host owns. -/
theorem stepScanline_keeps_host {s t : State} (h : stepScanline s = .next t) :
    t.reg = s.reg ∧ t.par = s.par ∧ t.inbox = s.inbox ∧ t.portData = s.portData ∧ t.draws = s.draws := by
  obtain ⟨-, -, completed | ⟨f, -, rfl⟩⟩ := stepScanline_next.mp h
  · obtain ⟨u, dma, rfl⟩ := scanline_ok completed
    rw [endLine_reg, endLine_par, endLine_inbox, endLine_portData, endLine_draws]
    exact ⟨dma.reg, dma.par, dma.inbox, dma.portData, dma.draws⟩
  · exact ⟨rfl, rfl, rfl, rfl, rfl⟩

theorem step_keeps_host {s t : State} (turn : s.blockTurn) (h : step s = .next t) :
    t.reg = s.reg ∧ t.par = s.par ∧ t.inbox = s.inbox.tail ∧ t.portData = s.portData ∧ t.draws = s.draws :=
  stepScanline_keeps_host ((step_blockTurn turn).symm.trans h)

/-- What a move of the host other than a reset leaves of the block's own state. -/
structure BlockKept (s t : State) : Prop where
  coord : t.coord = s.coord
  zone : t.zone = s.zone
  dl : t.dl = s.dl
  buf0 : t.buf0 = s.buf0
  buf1 : t.buf1 = s.buf1
  budget : t.budget = s.budget
  fault : t.fault = s.fault

theorem PortFrame.blockKept {s t : State} (frame : PortFrame s t) : BlockKept s t := by
  rw [frame]
  exact ⟨rfl, rfl, rfl, rfl, rfl, rfl, rfl⟩

/-- Every move of the host completes; but for a reset it leaves the block alone. -/
theorem hostMove_completes {m : HostMove} (notScanline : m ≠ .scanline) (s : State) :
    ∃ t, hostMove m s = .next t ∧ t.inbox = s.inbox ∧ t.par = s.par ∧ (m ≠ .reset → BlockKept s t) := by
  cases m with
  | port o a =>
    obtain ⟨t, run, frame⟩ := exec_port (stream_decodePort o a) s
    exact ⟨t, run, frame.instrFrame.inbox, frame.instrFrame.par, fun _ => frame.blockKept⟩
  | memWrite | busFail | busAnswer => exact ⟨_, rfl, rfl, rfl, fun _ => ⟨rfl, rfl, rfl, rfl, rfl, rfl, rfl⟩⟩
  | reset => exact ⟨_, rfl, rfl, rfl, fun notReset => absurd rfl notReset⟩
  | scanline => exact absurd rfl notScanline

theorem step_hostMove_completes {s : State} {m : HostMove} {rest : List HostMove} (turns : s.inbox = m :: rest)
    (notScanline : m ≠ .scanline) :
    ∃ t, step s = .next t ∧ t.inbox = rest ∧ t.par = s.par ∧ (m ≠ .reset → BlockKept s t) := by
  obtain ⟨t, run, inbox, par, kept⟩ := hostMove_completes notScanline { s with inbox := rest }
  exact ⟨t, (step_hostMove turns).trans run, inbox, par, fun notReset => { kept notReset with }⟩

/-- Settles O21: by the two kinds of turn. -/
theorem onlyTheOwnersChangeTheirState : Obligations.OnlyTheOwnersChangeTheirState := by
  refine ⟨fun s t turn h => step_keeps_host turn h, fun m rest s turns notScanline => ?_⟩
  obtain ⟨t, run, inbox, par, kept⟩ := step_hostMove_completes turns notScanline
  refine ⟨t, run, inbox, par, fun notReset => ?_⟩
  obtain ⟨coord, zone, dl, buf0, buf1, budget, fault⟩ := kept notReset
  exact ⟨coord, zone, dl, buf0, buf1, budget, fault⟩

/-! ## A recorded fault (R159) -/

theorem stepScanline_stuck {s : State} {f : FaultRecord} (faulted : s.fault = some f) :
    stepScanline s = .fault (.stuck f.addr f.op) := by
  rw [stepScanline, faulted]

/-- Settles O51: of the host's moves only a reset is not framed by `BlockKept`. -/
theorem faultsAreStickyUntilReset : Obligations.FaultsAreStickyUntilReset := by
  refine fun s f faulted => ⟨fun turn => ?stuck, fun o a rest turns => step_hostMove turns,
    fun m rest turns notReset notScanline => ?kept, fun rest turns => ⟨_, step_hostMove turns, rfl⟩, faulted⟩
  case stuck => exact (step_blockTurn turn).trans (stepScanline_stuck faulted)
  case kept =>
    obtain ⟨t, run, -, -, kept⟩ := step_hostMove_completes turns notScanline
    exact ⟨t, run, (kept notReset).fault.trans faulted⟩

/-! ## The order of turns (R6, R50) -/

theorem run_succ {M : Host.Core} {n : Nat} {s t : M.State} (first : M.step s = .next t) :
    M.run (n + 1) s = M.run n t := by
  rw [Host.Core.run, first]

theorem reaches_succ {n : Nat} {s t u : State} (first : step s = .next t) (rest : reaches n t u) : reaches (n + 1) s u :=
  (run_succ (M := Sys2Proof.core) first).trans rest

/-- The host's moves before a scanline step are taken one a step, and leave the turns after them. -/
theorem reaches_scanlineTurn {ms rest : List HostMove} {s : State} (moves : ∀ m ∈ ms, m ≠ .scanline)
    (turns : s.inbox = ms ++ .scanline :: rest) : ∃ t, reaches ms.length s t ∧ t.inbox = .scanline :: rest := by
  induction ms generalizing s with
  | nil => exact ⟨s, rfl, turns⟩
  | cons m ms ih =>
    obtain ⟨u, run, inbox, -, -⟩ := step_hostMove_completes turns (moves m List.mem_cons_self)
    obtain ⟨t, reached, last⟩ := ih (fun m' mem => moves m' (List.mem_cons_of_mem m mem)) inbox
    exact ⟨t, reaches_succ run reached, last⟩

/-- Settles O52: by induction on the moves before the scanline step. -/
theorem hostMovesFallBetweenScanlineSteps : Obligations.HostMovesFallBetweenScanlineSteps := by
  refine ⟨fun s => step_blockTurn, fun ms rest s moves turns => ?_⟩
  obtain ⟨t, reached, inbox⟩ := reaches_scanlineTurn moves turns
  refine ⟨t, reached, inbox, step_hostMove inbox, fun u h => ?_⟩
  obtain ⟨-, -, left, -⟩ := step_keeps_host (.inr ⟨rest, inbox⟩) h
  rw [left, inbox]
  rfl

/-! ## Memory writes (R50) -/

theorem busByte_of_answers {s : State} {a : Addr} (answers : a.toNat ∉ s.busFaults) :
    busByte s a = some (s.mem.read a.toNat) := by
  rw [busByte, if_neg (by simpa using answers)]

/-- Settles O53: the laws of `Memory.write`, through `busByte`. -/
theorem hostWritesAreSeen : Obligations.HostWritesAreSeen := by
  intro s a v rest turns wf
  refine ⟨_, step_hostMove turns, rfl, Memory.write_wf wf a v, fun answers => ?same, fun b ne => ?other⟩
  case same =>
    rw [busByte_of_answers (s := { s with inbox := rest, mem := s.mem.write a.toNat v }) answers,
      Memory.read_write_same wf]
  case other =>
    have ne : a.toNat ≠ b.toNat := fun eq => ne (BitVec.eq_of_toNat_eq eq.symm)
    simp only [busByte, Memory.read_write_other s.mem v ne]

/-! ## WSYNC (R146) -/

/-- Settles O54: the write's arm, and the end of a line. -/
theorem wsyncIsAPulse : Obligations.WsyncIsAPulse := by
  refine ⟨fun s v rest turns => step_hostMove turns, fun s t turn noFault h ends => ?_⟩
  obtain ⟨v, -, -, rfl⟩ := step_completed_framed turn h ends
  rw [endLine_out]

/-! ## Reset (R38, R169, R171) -/

/-- Settles O55: `resetBlock` written out. -/
theorem resetLeavesEveryFieldAtItsValue : Obligations.ResetLeavesEveryFieldAtItsValue := by
  intro s rest turns
  rw [step_hostMove turns, hostMove, resetBlock, State.resetWith, resetRegs]
  cases s.par.resetRegs <;> rfl

/-- The first line of a frame is not its last. -/
theorem one_ne_vPeriod (p : Params) : 0 + 1 ≠ vPeriod p := by
  unfold vPeriod; split <;> decide

/-- Settles O56: line 0 has no zone in force and is no frame start, so it is a line without DMA. -/
theorem firstStepAfterReset : Obligations.FirstStepAfterReset := by
  intro s turn costs notFirst
  have turn : (resetBlock s).blockTurn := turn
  obtain ⟨t, run, reads, consumed, -, -, dli, -, valid, -, -, -, fault⟩ :=
    linesWithoutDmaReadNothing (resetBlock s) turn ⟨rfl, costs⟩ notFirst.symm (.inr (.inr (.inr rfl)))
  obtain ⟨line, -, -, coord⟩ := scanlineOutputIsTheReadBuffer _ t turn rfl run fault
  obtain ⟨reg, -⟩ := step_keeps_host turn run
  obtain ⟨mem, -⟩ := scanlineStepsNeverWriteMemory _ t turn run
  refine ⟨t, run, ?line, ?coord, reg, reads, consumed, dli, valid, fault, mem⟩
  case line => rw [line]; rfl
  case coord => rw [coord, tick_of_not_lastLine (s := resetBlock s) (one_ne_vPeriod s.par)]; rfl

end Sys2Proof.Machine
end

