-- ==== Sys2Proof/Proofs/Noninterference.lean ====
section
/-! Noninterference (R21, R148, R150, R173): a change of registers that a scanline step does not read commutes with every part
of the step. -/
namespace Sys2Proof.Machine

/-! ## Register changes -/

/-- A change of the register bank that keeps what the walk of a display list and the resolver read. -/
structure KeepsDrawing (ρ : Regs → Regs) : Prop where
  background : ∀ r, (ρ r).background = r.background
  palette : ∀ r, (ρ r).palette = r.palette
  chbase : ∀ r, (ρ r).chbase = r.chbase
  ctrl : ∀ r, (ρ r).ctrl = r.ctrl

/-- The state with its registers changed. -/
def mapRegs (ρ : Regs → Regs) (s : State) : State := { s with reg := ρ s.reg }

/-- An answer with the registers of its next state changed. -/
def mapNext (ρ : Regs → Regs) : Result → Result
  | .next t => .next (mapRegs ρ t)
  | .fault r => .fault r
  | .refused r => .refused r

/-- A part of a step that does the same whatever the changed registers hold. -/
def Blind (ρ : Regs → Regs) (x : State → Run) : Prop := ∀ s, x (mapRegs ρ s) = (x s).map (mapRegs ρ)

theorem bind_map_comm {α β : Type} {x : Except Halt α} {f : α → α} {g : β → β} {k : α → Except Halt β}
    (comm : ∀ r, x = .ok r → k (f r) = (k r).map g) : (x.map f >>= k) = (x >>= k).map g := by
  cases x with
  | error h => rfl
  | ok r => exact comm r rfl

theorem resume_of_fault {t : State} {f : FaultRecord} (fault : t.fault = some f) :
    resume (.next t) = .error (.busError f) := by
  simp only [resume, fault]

section
variable {ρ : Regs → Regs}

theorem Blind.bind {x y : State → Run} (first : Blind ρ x) (rest : Blind ρ y) : Blind ρ fun s => x s >>= y := by
  intro s
  change (x (mapRegs ρ s) >>= y) = _
  rw [first s]
  exact bind_map_comm fun r _ => rest r

theorem Blind.unlessExhausted {y : State → Run} (rest : Blind ρ y) :
    Blind ρ fun t => if t.exhausted then .ok t else y t := by
  intro t
  change (if t.exhausted = true then Except.ok (mapRegs ρ t) else y (mapRegs ρ t)) =
    (if t.exhausted = true then Except.ok t else y t).map (mapRegs ρ)
  split
  · rfl
  · exact rest t

/-! ## Reads, charges and cells -/

theorem busRead_bind_map {α : Type} {op : ReadOp} {a : Addr} {s : State} {g : α → α} {k : Byte × State → Except Halt α}
    (rest : ∀ b t, k (b, mapRegs ρ t) = (k (b, t)).map g) :
    (busRead op a (mapRegs ρ s) >>= k) = (busRead op a s >>= k).map g := by
  cases read : busByte s a with
  | none => rw [busRead_fails read, busRead_fails (s := mapRegs ρ s) read]; rfl
  | some b =>
    rw [busRead_answers read, busRead_answers (s := mapRegs ρ s) read]
    exact rest b { s with reads := s.reads ++ [(a, op)] }

theorem charge_mapRegs (kind : EventKind) (h : Bool) (s : State) :
    charge kind h (mapRegs ρ s) = Prod.map id (mapRegs ρ) (charge kind h s) := by
  obtain ⟨spent, charged⟩ | ⟨live, fits, charged⟩ | ⟨live, short, charged⟩ := charge_cases kind h s
  · rw [charged, charge_of_exhausted (s := mapRegs ρ s) spent]; rfl
  · rw [charged, charge_of_fits (s := mapRegs ρ s) live fits]; rfl
  · rw [charged, charge_of_short (s := mapRegs ρ s) live short]; rfl

theorem raiseDli_mapRegs (s : State) : raiseDli (mapRegs ρ s) = mapRegs ρ (raiseDli s) :=
  congrArg Prod.snd (charge_mapRegs .interruptOverhead false { s with out := { s.out with dli := true } })

theorem setWriteBuffer_mapRegs (s : State) (b : LineBuffer) :
    setWriteBuffer (mapRegs ρ s) b = mapRegs ρ (setWriteBuffer s b) := by
  unfold setWriteBuffer mapRegs
  cases s.writeSel <;> rfl

theorem tick_mapRegs (s : State) : tick (mapRegs ρ s) = mapRegs ρ (tick s) := by
  by_cases last : s.coord.scanline + 1 = vPeriod s.par
  · rw [tick_of_lastLine last, tick_of_lastLine (s := mapRegs ρ s) last]; rfl
  · rw [tick_of_not_lastLine last, tick_of_not_lastLine (s := mapRegs ρ s) last]; rfl

theorem endLine_mapRegs (s : State) : endLine (mapRegs ρ s) = mapRegs ρ (endLine s) := by
  unfold endLine swapLineBuffers
  rw [← tick_mapRegs, ← setWriteBuffer_mapRegs]
  rfl

theorem conclude_mapRegs (s : State) (x : Run) :
    conclude (mapRegs ρ s) (x.map (mapRegs ρ)) = mapNext ρ (conclude s x) := by
  cases x with
  | ok t => rfl
  | error h => cases h <;> rfl

theorem resume_mapNext (r : Result) : resume (mapNext ρ r) = (resume r).map (mapRegs ρ) := by
  cases r with
  | next t =>
    cases fault : t.fault with
    | none =>
      rw [resume_ok.mpr ⟨rfl, fault⟩]
      exact resume_ok.mpr ⟨rfl, fault⟩
    | some f =>
      rw [resume_of_fault fault]
      exact resume_of_fault (t := mapRegs ρ t) fault
  | fault r => rfl
  | refused r => rfl

variable (keeps : KeepsDrawing ρ)
include keeps

theorem cellFor_mapRegs (s : State) (pal : BitVec 3) (c : BitVec 2) : cellFor (mapRegs ρ s) pal c = cellFor s pal c := by
  unfold cellFor mapRegs
  rw [keeps.ctrl]

theorem putCell_mapRegs (x : Pos) (pal : BitVec 3) (c : BitVec 2) (s : State) :
    putCell x pal c (mapRegs ρ s) = mapRegs ρ (putCell x pal c s) := by
  have cell := cellFor_mapRegs keeps s pal c
  obtain onLine | offLine := Nat.lt_or_ge (pipelineTarget s.par x) Config.lineCells
  · cases drawn : cellFor s pal c with
    | none => rw [putCell_transparent drawn, putCell_transparent (cell.trans drawn)]
    | some e =>
      rw [putCell_onLine onLine drawn, putCell_onLine (s := mapRegs ρ s) onLine (cell.trans drawn),
        setWriteBuffer_mapRegs]
      rfl
  · rw [putCell_offLine offLine, putCell_offLine (s := mapRegs ρ s) offLine]

theorem graphicsByteWm0_mapRegs (c0 c1 c2 c3 : BitVec 2) (s : State) :
    graphicsByteWm0 c0 c1 c2 c3 (mapRegs ρ s) = mapRegs ρ (graphicsByteWm0 c0 c1 c2 c3 s) := by
  simp only [graphicsByteWm0, writeCellsWm0, putCell_mapRegs keeps]
  rfl

theorem graphicsByteWm1_mapRegs (c0 c1 p0 p1 : BitVec 2) (s : State) :
    graphicsByteWm1 c0 c1 p0 p1 (mapRegs ρ s) = mapRegs ρ (graphicsByteWm1 c0 c1 p0 p1 s) := by
  simp only [graphicsByteWm1, writeCellsWm1, putCell_mapRegs keeps]
  rfl

theorem writeGraphicsByte_mapRegs (b : Byte) (s : State) :
    writeGraphicsByte b (mapRegs ρ s) = mapRegs ρ (writeGraphicsByte b s) := by
  unfold writeGraphicsByte
  rw [graphicsByteWm0_mapRegs keeps, graphicsByteWm1_mapRegs keeps]
  change (if s.writeMode = true then _ else _) = _
  split <;> rfl

/-! ## Instructions -/

theorem drawCharacterBytes_blind (n : Nat) (a : Addr) : Blind ρ (drawCharacterBytes n a) := by
  induction n generalizing a with
  | zero => exact fun s => rfl
  | succ n ih =>
    intro s
    cases read : busByte s a with
    | none => rw [drawCharacterBytes_fails read, drawCharacterBytes_fails (s := mapRegs ρ s) read]; rfl
    | some b =>
      rw [drawCharacterBytes_succ read, drawCharacterBytes_succ (s := mapRegs ρ s) read, ← ih,
        ← writeGraphicsByte_mapRegs keeps]
      rfl

theorem characterBase_mapRegs (s : State) (c : Byte) : characterBase (mapRegs ρ s) c = characterBase s c := by
  unfold characterBase mapRegs
  rw [keeps.chbase]
  rfl

theorem characterKind_mapRegs (s : State) : characterKind (mapRegs ρ s) = characterKind s := by
  unfold characterKind mapRegs
  rw [keeps.ctrl]

theorem bytesPerCharacter_mapRegs (s : State) : bytesPerCharacter (mapRegs ρ s) = bytesPerCharacter s := by
  unfold bytesPerCharacter mapRegs
  rw [keeps.ctrl]

theorem drawCharacter_blind (c : Byte) : Blind ρ (drawCharacter c) := by
  intro s
  have base := characterBase_mapRegs keeps s c
  have hole : holey (mapRegs ρ s) (characterBase (mapRegs ρ s) c) = holey s (characterBase s c) := by rw [base]; rfl
  have charged' := charge_mapRegs (ρ := ρ) (characterKind s) (holey s (characterBase s c)) s
  cases charged : charge (characterKind s) (holey s (characterBase s c)) s with
  | mk paid t =>
    rw [charged, ← characterKind_mapRegs keeps, ← hole] at charged'
    cases paid with
    | false =>
      rw [drawCharacter_unpaid charged, drawCharacter_unpaid charged']
      rfl
    | true =>
      cases isHole : holey s (characterBase s c) with
      | true =>
        rw [drawCharacter_holey isHole (isHole ▸ charged),
          drawCharacter_holey (hole.trans isHole) (hole.trans isHole ▸ charged'), bytesPerCharacter_mapRegs keeps]
        rfl
      | false =>
        rw [drawCharacter_solid isHole (isHole ▸ charged),
          drawCharacter_solid (hole.trans isHole) (hole.trans isHole ▸ charged'), bytesPerCharacter_mapRegs keeps, base]
        exact drawCharacterBytes_blind keeps _ _ t

/-- Every instruction a scanline step fetches. -/
theorem exec_mapRegs {i : Instr} (notPort : i.stream ≠ .port) (s : State) :
    exec i (mapRegs ρ s) = mapNext ρ (exec i s) := by
  cases i with
  | zone | dlEnd | dlLong | dlShort => rfl
  | gfxWm0 c0 c1 c2 c3 => exact congrArg Host.Outcome.next (graphicsByteWm0_mapRegs keeps c0 c1 c2 c3 s)
  | gfxWm1 c0 c1 p0 p1 => exact congrArg Host.Outcome.next (graphicsByteWm1_mapRegs keeps c0 c1 p0 p1 s)
  | charptr c =>
    rw [exec, execCharptr, drawCharacter_blind keeps c s]
    exact conclude_mapRegs s _
  | _ => exact absurd rfl notPort

theorem runInstr_blind {i : Instr} (notPort : i.stream ≠ .port) : Blind ρ (runInstr i) := fun s =>
  (congrArg resume (exec_mapRegs keeps notPort s)).trans (resume_mapNext _)

/-! ## Objects and the display list -/

theorem drawDirectBytes_blind (n : Nat) (a : Addr) : Blind ρ (drawDirectBytes n a) := by
  induction n generalizing a with
  | zero => exact fun s => rfl
  | succ n ih =>
    intro s
    have charged' := charge_mapRegs (ρ := ρ) .graphicsDirect false s
    cases charged : charge .graphicsDirect false s with
    | mk paid t =>
      rw [charged] at charged'
      cases paid with
      | false =>
        rw [drawDirectBytes_unpaid charged, drawDirectBytes_unpaid charged']
        rfl
      | true =>
        rw [drawDirectBytes_paid charged, drawDirectBytes_paid charged']
        refine busRead_bind_map fun b u => ?_
        have notPort : (decodeGraphics u.writeMode b).stream ≠ .port := by
          rw [decodeGraphics_stream]; nofun
        exact (runInstr_blind keeps notPort).bind (ih (a + 1)) u

theorem drawCharacters_blind (n : Nat) (a : Addr) : Blind ρ (drawCharacters n a) := by
  induction n generalizing a with
  | zero => exact fun s => rfl
  | succ n ih =>
    exact fun s => busRead_bind_map fun c t =>
      (runInstr_blind keeps (by nofun : (Instr.charptr c).stream ≠ .port)).bind (ih (a + 1)).unlessExhausted t

theorem drawDirect_blind : Blind ρ drawDirect := by
  intro s
  cases hole : holey s (directBase s) with
  | true => rw [drawDirect_holey hole, drawDirect_holey (s := mapRegs ρ s) hole, charge_mapRegs]; rfl
  | false =>
    rw [drawDirect_solid hole, drawDirect_solid (s := mapRegs ρ s) hole]
    exact drawDirectBytes_blind keeps _ _ s

theorem drawObject_blind : Blind ρ drawObject := by
  intro s
  cases indirect : s.dl.indirect with
  | true =>
    rw [drawObject_indirect indirect, drawObject_indirect (s := mapRegs ρ s) indirect]
    exact drawCharacters_blind keeps _ _ { s with gfxIndex := 0 }
  | false =>
    rw [drawObject_direct indirect, drawObject_direct (s := mapRegs ρ s) indirect]
    exact drawDirect_blind keeps { s with gfxIndex := 0 }

omit keeps in
theorem fetchHeader_mapRegs (s : State) : fetchHeader (mapRegs ρ s) = (fetchHeader s).map (Prod.map id (mapRegs ρ)) := by
  unfold fetchHeader
  refine busRead_bind_map fun m t => ?_
  cases cls : classify m with
  | endOfList => simp only [cls]; rfl
  | long =>
    simp only [cls]
    exact busRead_bind_map fun _ _ => busRead_bind_map fun _ _ => busRead_bind_map fun _ _ => busRead_bind_map fun _ _ => rfl
  | short =>
    simp only [cls]
    exact busRead_bind_map fun _ _ => busRead_bind_map fun _ _ => busRead_bind_map fun _ _ => rfl

theorem decodeHeader_blind : Blind ρ decodeHeader := by
  intro s
  rw [decodeHeader, fetchHeader_mapRegs]
  refine bind_map_comm fun r fetched => ?_
  have notPort : r.1.stream ≠ .port := by
    rw [(fetchHeader_frame fetched).2]; nofun
  exact runInstr_blind keeps notPort r.2

theorem walkLoop_blind (n : Nat) : Blind ρ (walkLoop n) := by
  induction n with
  | zero => exact fun s => rfl
  | succ n ih =>
    have advances : Blind ρ advance := fun u => decodeHeader_blind keeps (atNextHeader u)
    intro s
    cases isEnd : s.dl.isEnd with
    | true => rw [walkLoop_end isEnd, walkLoop_end (s := mapRegs ρ s) isEnd]; rfl
    | false =>
      have charged' := charge_mapRegs (ρ := ρ) (headerKind s) false s
      cases charged : charge (headerKind s) false s with
      | mk paid t =>
        rw [charged] at charged'
        cases paid with
        | false =>
          rw [walkLoop_unpaid isEnd charged, walkLoop_unpaid (s := mapRegs ρ s) isEnd charged']
          rfl
        | true =>
          rw [walkLoop_paid isEnd charged, walkLoop_paid (s := mapRegs ρ s) isEnd charged']
          exact (drawObject_blind keeps).bind (advances.bind ih).unlessExhausted t

theorem walkDisplayList_blind : Blind ρ walkDisplayList := by
  intro s
  cases live : s.exhausted with
  | true =>
    rw [walkDisplayList, walkDisplayList, if_pos live]
    exact if_pos live
  | false =>
    have begins : Blind ρ beginZone := fun u => decodeHeader_blind keeps (atDisplayList u)
    have rest : Blind ρ fun t => walkLoop (t.budget + 1) t := fun t => walkLoop_blind keeps _ t
    rw [walkDisplayList_of_live live, walkDisplayList_of_live (s := mapRegs ρ s) live]
    exact begins.bind rest s

/-! ## Zones and the line -/

theorem readZoneRecord_blind : Blind ρ readZoneRecord := by
  intro s
  have fetch : fetchZone (mapRegs ρ s) = (fetchZone s).map (Prod.map id (mapRegs ρ)) :=
    busRead_bind_map fun _ _ => busRead_bind_map fun _ _ => busRead_bind_map fun _ _ => rfl
  rw [readZoneRecord, fetch]
  refine bind_map_comm fun r fetched => ?_
  obtain ⟨_, -, fetched⟩ := bind_ok.mp fetched
  obtain ⟨_, -, fetched⟩ := bind_ok.mp fetched
  obtain ⟨_, -, fetched⟩ := bind_ok.mp fetched
  cases fetched
  exact runInstr_blind keeps (by nofun) _

omit keeps in
theorem afterAdvance_mapRegs (r : Bool × State) :
    afterAdvance (r.1, mapRegs ρ r.2) = mapRegs ρ (afterAdvance r) := by
  unfold afterAdvance
  rw [raiseDli_mapRegs]
  change (if r.1 = true ∧ r.2.zone.dli = true then _ else _) = _
  split <;> rfl

theorem countdown_blind : Blind ρ countdown := by
  intro s
  rw [countdown_eq, countdown_eq]
  by_cases expired : s.zone.remaining = 0
  · rw [advanceIfExpired_of_remaining_zero expired, advanceIfExpired_of_remaining_zero (s := mapRegs ρ s) expired]
    have load := readZoneRecord_blind keeps (atNextZone s)
    cases run : readZoneRecord (atNextZone s) with
    | error h =>
      rw [run] at load
      rw [show readZoneRecord (atNextZone (mapRegs ρ s)) = _ from load]
      rfl
    | ok t =>
      rw [run] at load
      rw [show readZoneRecord (atNextZone (mapRegs ρ s)) = _ from load]
      exact congrArg Except.ok (afterAdvance_mapRegs (true, t))
  · rw [advanceIfExpired_of_remaining_ne_zero expired, advanceIfExpired_of_remaining_ne_zero (s := mapRegs ρ s) expired]
    exact congrArg Except.ok (afterAdvance_mapRegs
      (false, { s with zone := { s.zone with remaining := s.zone.remaining - 1 } }))

theorem dmaOn_mapRegs (s : State) : dmaOn (mapRegs ρ s) = dmaOn s := by
  unfold dmaOn mapRegs
  rw [keeps.ctrl]

theorem dmaRuns_mapRegs (s : State) : dmaRuns (mapRegs ρ s) = dmaRuns s := by
  unfold dmaRuns
  rw [dmaOn_mapRegs keeps]
  rfl

theorem lineDma_blind : Blind ρ lineDma := by
  intro s
  have runs := dmaRuns_mapRegs keeps s
  cases on : dmaRuns s with
  | false => rw [lineDma_of_off on, lineDma_of_off (runs.trans on)]; rfl
  | true =>
    rw [lineDma_of_on on, lineDma_of_on (runs.trans on), charge_mapRegs]
    exact (walkDisplayList_blind keeps).bind (countdown_blind keeps) _

theorem lineStart_mapRegs (s : State) : lineStart (mapRegs ρ s) = mapRegs ρ (lineStart s) := by
  have cell : resolveCell (ρ s.reg) = resolveCell s.reg := by
    funext e
    cases e with
    | unset => simp only [resolveCell, keeps.background]
    | set pal c => cases c <;> simp only [resolveCell, keeps.background, keeps.palette, keeps.ctrl]
  unfold lineStart outputLine resolve mapRegs
  simp only [cell, keeps.ctrl]
  rfl

/-- The frame start reads the display pointers too, on `FIRST_DMA_LINE`. -/
theorem frameStart_mapRegs {s : State}
    (pointers : s.coord.scanline = s.par.firstDmaLine → zoneListStart (mapRegs ρ s) = zoneListStart s) :
    frameStart (mapRegs ρ s) = (frameStart s).map (mapRegs ρ) := by
  have runs := dmaOn_mapRegs keeps s
  by_cases first : s.coord.scanline = s.par.firstDmaLine
  · cases on : dmaOn s with
    | false =>
      rw [frameStart_of_dmaOff first on, frameStart_of_dmaOff (s := mapRegs ρ s) first (runs.trans on)]
      rfl
    | true =>
      have begins : beginFrame (mapRegs ρ s) = (beginFrame s).map (mapRegs ρ) := by
        rw [beginFrame, atZoneList, pointers first]
        exact readZoneRecord_blind keeps (atZoneList s)
      have blank (t : State) : blankEnded (mapRegs ρ t) = mapRegs ρ (blankEnded t) :=
        congrArg Prod.snd (charge_mapRegs .endOfBlank false { t with zoneValid := true })
      rw [frameStart_of_dmaOn first on, frameStart_of_dmaOn (s := mapRegs ρ s) first (runs.trans on), begins]
      refine bind_map_comm fun t _ => ?_
      rw [blank, raiseDli_mapRegs]
      change Except.ok (if ((blankEnded t).par.dliOnFirstZone && (blankEnded t).zone.dli) = true then _ else _) = _
      split <;> rfl
  · rw [frameStart_of_otherLine first, frameStart_of_otherLine (s := mapRegs ρ s) first]
    rfl

theorem scanline_mapRegs {s : State}
    (pointers : s.coord.scanline = s.par.firstDmaLine → zoneListStart (mapRegs ρ s) = zoneListStart s) :
    scanline (mapRegs ρ s) = (scanline s).map (mapRegs ρ) := by
  rw [scanline_eq, scanline_eq, lineStart_mapRegs keeps, frameStart_mapRegs keeps (s := lineStart s) pointers]
  refine bind_map_comm fun u _ => ?_
  rw [lineDma_blind keeps]
  exact bind_map_comm fun v _ => congrArg Except.ok (endLine_mapRegs v)

theorem stepScanline_mapRegs {s : State}
    (pointers : s.coord.scanline = s.par.firstDmaLine → zoneListStart (mapRegs ρ s) = zoneListStart s) :
    stepScanline (mapRegs ρ s) = mapNext ρ (stepScanline s) := by
  cases faulted : s.fault with
  | some f => rw [stepScanline_stuck faulted, stepScanline_stuck (s := mapRegs ρ s) faulted]; rfl
  | none =>
    rw [stepScanline, stepScanline, faulted, show (mapRegs ρ s).fault = none from faulted]
    change (if headerCostsPositive s.par = true then _ else _) = _
    rw [scanline_mapRegs keeps pointers]
    simp only
    split
    · exact conclude_mapRegs s _
    · rfl

theorem step_mapRegs {s : State} (turn : s.blockTurn)
    (pointers : s.coord.scanline = s.par.firstDmaLine → zoneListStart (mapRegs ρ s) = zoneListStart s) :
    step (mapRegs ρ s) = mapNext ρ (step s) := by
  have turn' : (mapRegs ρ s).blockTurn := turn
  rw [step_blockTurn turn, step_blockTurn turn']
  exact stepScanline_mapRegs keeps (s := s.afterTurn) pointers

end

/-! ## The two registers' statements -/

/-- Settles O59: OFFSET is read nowhere. -/
theorem offsetHasNoEffect : Obligations.OffsetHasNoEffect := by
  intro s v turn
  have keeps : KeepsDrawing fun r => { r with offset := v } := ⟨fun _ => rfl, fun _ => rfl, fun _ => rfl, fun _ => rfl⟩
  refine (step_mapRegs keeps turn fun _ => rfl).trans ?_
  cases step s <;> rfl

/-- Settles O60: the line is no frame start, the one place that reads the pointers. -/
theorem displayPointersAreReadAtTheFrameStartOnly : Obligations.DisplayPointersAreReadAtTheFrameStartOnly := by
  intro s h l turn other
  have keeps : KeepsDrawing fun r => { r with dpph := h, dppl := l } :=
    ⟨fun _ => rfl, fun _ => rfl, fun _ => rfl, fun _ => rfl⟩
  refine (step_mapRegs keeps turn fun first => absurd first other).trans ?_
  cases step s <;> rfl

end Sys2Proof.Machine
end
